-- ==== Sys2Proof/Word.lean ====
section
/-! DEFINITION. The widths of abacus CORE128 (00_scope.md R8): 128-bit values, 32-bit words, 8-bit characters. -/

namespace Sys2Proof

/-- A 128-bit bit pattern, the contents of a value register (R8, R20, R21). -/
abbrev Value := BitVec 128

/-- A 32-bit word: a command, a bus word, one quarter of a value (R8, R15). -/
abbrev Word := BitVec 32

/-- One byte of STRBUF: a character code (R36). -/
abbrev Byte := BitVec 8

end Sys2Proof
end

