-- ==== Sys2Proof/Config.lean ====
section
/-! DEFINITION. The open parameters of 00_scope.md R9 and the free values of 93_implementation_defined.md P11. Each is an
opaque constant: nothing can be proved about its value, so a claim holds for every choice the platform makes. -/

namespace Sys2Proof

/-- The forms in which a host can observe a rejected access: "an error response, an exception in the host, or a read value"
(R9 BUS_ERROR_RESPONSE). DESIGN CHOICE (log entry 21): R9 does not say how wide the read value is; here it is 32 bits for a
rejected read of any width. -/
inductive BusErrorResponse where
  /-- the bus returns an error response -/
  | errorResponse
  /-- the host takes an exception of its own -/
  | hostException
  /-- the host reads some value, of 32 bits whatever the width of the access (DESIGN CHOICE, log entry 21) -/
  | readValue (v : Word)
  deriving DecidableEq, Repr, Inhabited

/-- `CORE_BASE` divided by 0x200: the window is 0x200-aligned (R9, D7). Open. -/
opaque Config.coreBaseIndex : Nat

/-- `CORE_BASE`, the byte address of the register window in the host's address space (R9, R60). -/
def Config.coreBase : Nat := 0x200 * Config.coreBaseIndex

/-- `LATENCY(cmd, operands)` less one: a finite number of cycles (R9, R260). The operands are those of R32: x[RS1], x[RS2],
STRLEN and the bytes of STRBUF. Open. -/
opaque Config.extraLatency : (cmd : Word) → (a b : Value) → (strlen : Byte) → (strbuf : List (Nat × Byte)) → Nat

/-- `BUS_ERROR_RESPONSE` for a rejected access: whether it is a write, its address and its width in bytes (R9, R63). Open.
That nothing else decides it is the model's choice (log entries 20, 21). -/
opaque Config.busErrorResponse : (isWrite : Bool) → (addr bytes : Nat) → BusErrorResponse

/-- Free value: in the `n`-th multi-word read made while BUSY = 1, does word `j` show its post-completion value? Each word is
"old or new, independently" (R256, P11). -/
opaque Config.tornWord : (n j : Nat) → Bool

end Sys2Proof
end

