-- ==== Sys2Proof/Syntax.lean ====
section
/-! DEFINITION. The abstract commands of the block: one constructor per row of spec/opcode_table.json. A command carries
exactly the register fields that 30_encoding.md R86 lists under "fields read"; the fields it ignores (R90) and the S bit it
ignores (R89) are no part of it. -/

namespace Sys2Proof

/-- The eight value registers (R20). None is hardwired, none is an alias of another. -/
inductive Reg where
  | x0 | x1 | x2 | x3 | x4 | x5 | x6 | x7
  deriving DecidableEq, Repr

/-- The 34 commands of R86, in the table's order, operands in the order of R93 (destinations first). -/
inductive Instr where
  | add (rd rs1 rs2 : Reg)
  | sub (rd rs1 rs2 : Reg)
  | neg (rd rs1 : Reg)
  | not (rd rs1 : Reg)
  | and (rd rs1 rs2 : Reg)
  | or (rd rs1 rs2 : Reg)
  | xor (rd rs1 rs2 : Reg)
  | sll (rd rs1 rs2 : Reg)
  | srl (rd rs1 rs2 : Reg)
  | cmpU (rd rs1 rs2 : Reg)
  | cmpS (rd rs1 rs2 : Reg)
  | mul (rd rs1 rs2 : Reg)
  | divU (rd rs1 rs2 : Reg)
  | divS (rd rs1 rs2 : Reg)
  | remU (rd rs1 rs2 : Reg)
  | remS (rd rs1 rs2 : Reg)
  | divremU (rd rd2 rs1 rs2 : Reg)
  | divremS (rd rd2 rs1 rs2 : Reg)
  | pow (rd rs1 rs2 : Reg)
  | rootU (rd rs1 rs2 : Reg)
  | rootS (rd rs1 rs2 : Reg)
  | sqrtU (rd rs1 : Reg)
  | sqrtS (rd rs1 : Reg)
  | digitsU (rd rs1 rs2 : Reg)
  | digitsS (rd rs1 rs2 : Reg)
  | tostrU (rs1 rs2 : Reg)
  | tostrS (rs1 rs2 : Reg)
  | parse (rd rs2 : Reg)
  | ext64U (rd rs1 : Reg)
  | ext64S (rd rs1 : Reg)
  | cminU (rd : Reg)
  | cminS (rd : Reg)
  | cmaxU (rd : Reg)
  | cmaxS (rd : Reg)
  deriving DecidableEq, Repr

end Sys2Proof
end

