-- ==== Sys2Proof/WellFormed.lean ====
section
/-! DEFINITION. What is well formed: a command term, a command word (30_encoding.md R88) and a bus access (20_memory.md R62). -/

namespace Sys2Proof

/-- Every command term is well formed: its registers are of type `Reg` and it carries only the fields its row reads, so no
term stands outside the encoding (R83: "This is always legal"). What can be ill formed is a word, below. -/
def Instr.wellFormed : Instr → Bool := fun _ => true

/-- OP of a command word names a listed operation: neither 0x00 nor 0x18..0x3F (R88). -/
def opListed (w : Word) : Bool := 0x01 ≤ (w.extractLsb' 0 6).toNat && (w.extractLsb' 0 6).toNat ≤ 0x17

/-- RES0 (bit 7) of a command word is 0 (R80, R88). -/
def res0Clear (w : Word) : Bool := w.extractLsb' 7 1 == 0#1

/-- RES1 (bits 31:20) of a command word is 0 (R80, R88). -/
def res1Clear (w : Word) : Bool := w.extractLsb' 20 12 == 0#12

/-- A command word that is not illegal (R88). -/
def legalWord (w : Word) : Bool := opListed w && res0Clear w && res1Clear w

/-- A legal access of the window: 32 bits wide, at a byte offset that is a multiple of 4 (R62). -/
def legalAccess (off bytes : Nat) : Bool := bytes == 4 && off % 4 == 0

end Sys2Proof
end

