-- ==== Sys2Proof/Decode.lean ====
section
/-! DEFINITION. Decode of a 32-bit command word (30_encoding.md R80, R81, R86, R87), total and rejecting by name; the encoder
of R80, R90 and R93 after it. -/

namespace Sys2Proof

/-- Why a word is illegal (R88); all give ILLEGAL_COMMAND (R227). -/
inductive DecodeError where
  /-- bit 7 is set -/
  | reservedBit7
  /-- one of bits 31:20 is set -/
  | reservedHighBits
  /-- OP = 0x00 or OP ≥ 0x18 -/
  | reservedOpcode
  deriving DecidableEq, Repr

/-- Field value `n` selects `x_n` (R83). -/
def Reg.ofBits (b : BitVec 3) : Reg :=
  match b.toNat with
  | 0 => .x0
  | 1 => .x1
  | 2 => .x2
  | 3 => .x3
  | 4 => .x4
  | 5 => .x5
  | 6 => .x6
  | _ => .x7

/-- The number `n` of `x_n` (R83). -/
def Reg.number : Reg → Nat
  | .x0 => 0
  | .x1 => 1
  | .x2 => 2
  | .x3 => 3
  | .x4 => 4
  | .x5 => 5
  | .x6 => 6
  | .x7 => 7

/-- OP, bits 5:0 (R80). -/
def fieldOP (w : Word) : BitVec 6 := w.extractLsb' 0 6

/-- S, bit 6 (R80): true for the Signed Wrapper reading (R82). -/
def fieldS (w : Word) : Bool := w.extractLsb' 6 1 == 1#1

/-- RD, bits 10:8 (R80). -/
def fieldRD (w : Word) : Reg := .ofBits (w.extractLsb' 8 3)

/-- RS1, bits 13:11 (R80). -/
def fieldRS1 (w : Word) : Reg := .ofBits (w.extractLsb' 11 3)

/-- RS2, bits 16:14 (R80). -/
def fieldRS2 (w : Word) : Reg := .ofBits (w.extractLsb' 14 3)

/-- RD2, bits 19:17 (R80). -/
def fieldRD2 (w : Word) : Reg := .ofBits (w.extractLsb' 17 3)

/-- The row of the opcode map that `op` and `s` select, with its register fields (R86); none where `op` is reserved. -/
def opcodeRow (op : Nat) (s : Bool) (rd rs1 rs2 rd2 : Reg) : Option Instr :=
  match op, s with
  | 0x01, _ => some (.add rd rs1 rs2)
  | 0x02, _ => some (.sub rd rs1 rs2)
  | 0x03, _ => some (.neg rd rs1)
  | 0x04, _ => some (.not rd rs1)
  | 0x05, _ => some (.and rd rs1 rs2)
  | 0x06, _ => some (.or rd rs1 rs2)
  | 0x07, _ => some (.xor rd rs1 rs2)
  | 0x08, _ => some (.sll rd rs1 rs2)
  | 0x09, _ => some (.srl rd rs1 rs2)
  | 0x0A, false => some (.cmpU rd rs1 rs2)
  | 0x0A, true => some (.cmpS rd rs1 rs2)
  | 0x0B, _ => some (.mul rd rs1 rs2)
  | 0x0C, false => some (.divU rd rs1 rs2)
  | 0x0C, true => some (.divS rd rs1 rs2)
  | 0x0D, false => some (.remU rd rs1 rs2)
  | 0x0D, true => some (.remS rd rs1 rs2)
  | 0x0E, false => some (.divremU rd rd2 rs1 rs2)
  | 0x0E, true => some (.divremS rd rd2 rs1 rs2)
  | 0x0F, _ => some (.pow rd rs1 rs2)
  | 0x10, false => some (.rootU rd rs1 rs2)
  | 0x10, true => some (.rootS rd rs1 rs2)
  | 0x11, false => some (.sqrtU rd rs1)
  | 0x11, true => some (.sqrtS rd rs1)
  | 0x12, false => some (.digitsU rd rs1 rs2)
  | 0x12, true => some (.digitsS rd rs1 rs2)
  | 0x13, false => some (.tostrU rs1 rs2)
  | 0x13, true => some (.tostrS rs1 rs2)
  | 0x14, _ => some (.parse rd rs2)
  | 0x15, false => some (.ext64U rd rs1)
  | 0x15, true => some (.ext64S rd rs1)
  | 0x16, false => some (.cminU rd)
  | 0x16, true => some (.cminS rd)
  | 0x17, false => some (.cmaxU rd)
  | 0x17, true => some (.cmaxS rd)
  | _, _ => none

/-- Decode, in the order of R87: the reserved bits, then the opcode. Total on every 32-bit word. -/
def decodeWord (w : Word) : Except DecodeError Instr :=
  if w.extractLsb' 7 1 ≠ 0#1 then .error .reservedBit7
  else if w.extractLsb' 20 12 ≠ 0#12 then .error .reservedHighBits
  else
    match opcodeRow (fieldOP w).toNat (fieldS w) (fieldRD w) (fieldRS1 w) (fieldRS2 w) (fieldRD2 w) with
    | some i => .ok i
    | none => .error .reservedOpcode

/-- The instruction bits of a table row as the one word that is written to CMD (R91): bits at `nbits` and above are 0. -/
def tableWord (nbits w : Nat) : Word := BitVec.ofNat 32 (w % 2 ^ nbits)

/-- The instruction that the decoder reads from a table word; none where it refuses. -/
def decodeTableWord (nbits w : Nat) : Option Instr :=
  match decodeWord (tableWord nbits w) with
  | .ok i => some i
  | .error _ => none

/-- Format C (R80): `OP | S<<6 | RD<<8 | RS1<<11 | RS2<<14 | RD2<<17`, reserved bits 0. The fields do not overlap, so the
sum is the bitwise OR. -/
def packFields (op : Nat) (s : Bool) (rd rs1 rs2 rd2 : Reg) : Word :=
  BitVec.ofNat 32 (op + s.toNat * 2 ^ 6 + rd.number * 2 ^ 8 + rs1.number * 2 ^ 11 + rs2.number * 2 ^ 14 + rd2.number * 2 ^ 17)

/-- The assembler's word of a command: S from the suffix (R84), ignored fields 0 (R90, R93). -/
def encode : Instr → Word
  | .add rd rs1 rs2 => packFields 0x01 false rd rs1 rs2 .x0
  | .sub rd rs1 rs2 => packFields 0x02 false rd rs1 rs2 .x0
  | .neg rd rs1 => packFields 0x03 false rd rs1 .x0 .x0
  | .not rd rs1 => packFields 0x04 false rd rs1 .x0 .x0
  | .and rd rs1 rs2 => packFields 0x05 false rd rs1 rs2 .x0
  | .or rd rs1 rs2 => packFields 0x06 false rd rs1 rs2 .x0
  | .xor rd rs1 rs2 => packFields 0x07 false rd rs1 rs2 .x0
  | .sll rd rs1 rs2 => packFields 0x08 false rd rs1 rs2 .x0
  | .srl rd rs1 rs2 => packFields 0x09 false rd rs1 rs2 .x0
  | .cmpU rd rs1 rs2 => packFields 0x0A false rd rs1 rs2 .x0
  | .cmpS rd rs1 rs2 => packFields 0x0A true rd rs1 rs2 .x0
  | .mul rd rs1 rs2 => packFields 0x0B false rd rs1 rs2 .x0
  | .divU rd rs1 rs2 => packFields 0x0C false rd rs1 rs2 .x0
  | .divS rd rs1 rs2 => packFields 0x0C true rd rs1 rs2 .x0
  | .remU rd rs1 rs2 => packFields 0x0D false rd rs1 rs2 .x0
  | .remS rd rs1 rs2 => packFields 0x0D true rd rs1 rs2 .x0
  | .divremU rd rd2 rs1 rs2 => packFields 0x0E false rd rs1 rs2 rd2
  | .divremS rd rd2 rs1 rs2 => packFields 0x0E true rd rs1 rs2 rd2
  | .pow rd rs1 rs2 => packFields 0x0F false rd rs1 rs2 .x0
  | .rootU rd rs1 rs2 => packFields 0x10 false rd rs1 rs2 .x0
  | .rootS rd rs1 rs2 => packFields 0x10 true rd rs1 rs2 .x0
  | .sqrtU rd rs1 => packFields 0x11 false rd rs1 .x0 .x0
  | .sqrtS rd rs1 => packFields 0x11 true rd rs1 .x0 .x0
  | .digitsU rd rs1 rs2 => packFields 0x12 false rd rs1 rs2 .x0
  | .digitsS rd rs1 rs2 => packFields 0x12 true rd rs1 rs2 .x0
  | .tostrU rs1 rs2 => packFields 0x13 false .x0 rs1 rs2 .x0
  | .tostrS rs1 rs2 => packFields 0x13 true .x0 rs1 rs2 .x0
  | .parse rd rs2 => packFields 0x14 false rd .x0 rs2 .x0
  | .ext64U rd rs1 => packFields 0x15 false rd rs1 .x0 .x0
  | .ext64S rd rs1 => packFields 0x15 true rd rs1 .x0 .x0
  | .cminU rd => packFields 0x16 false rd .x0 .x0 .x0
  | .cminS rd => packFields 0x16 true rd .x0 .x0 .x0
  | .cmaxU rd => packFields 0x17 false rd .x0 .x0 .x0
  | .cmaxS rd => packFields 0x17 true rd .x0 .x0 .x0

/-- A mask that covers S (R90: an S-dependent row's mask is 0xFFF000FF) or leaves it out (0xFFF000BF). -/
def tableMask (sDependent : Bool) : Word := if sDependent then 0xFFF000FF#32 else 0xFFF000BF#32

/-- RD as a mask (R80). -/
def maskRD : Word := 0x00000700#32

/-- RS1 as a mask (R80). -/
def maskRS1 : Word := 0x00003800#32

/-- RS2 as a mask (R80). -/
def maskRS2 : Word := 0x0001C000#32

/-- RD2 as a mask (R80). -/
def maskRD2 : Word := 0x000E0000#32

/-- The bits of a word that matter to its command: the table's mask and the register fields of the "fields read" column
(R86, R90). -/
def readMask : Instr → Word
  | .add .. | .sub .. | .and .. | .or .. | .xor .. | .sll .. | .srl .. | .mul .. | .pow .. =>
    tableMask false ||| maskRD ||| maskRS1 ||| maskRS2
  | .neg .. | .not .. => tableMask false ||| maskRD ||| maskRS1
  | .cmpU .. | .cmpS .. | .divU .. | .divS .. | .remU .. | .remS .. | .rootU .. | .rootS .. | .digitsU .. | .digitsS .. =>
    tableMask true ||| maskRD ||| maskRS1 ||| maskRS2
  | .divremU .. | .divremS .. => tableMask true ||| maskRD ||| maskRS1 ||| maskRS2 ||| maskRD2
  | .sqrtU .. | .sqrtS .. | .ext64U .. | .ext64S .. => tableMask true ||| maskRD ||| maskRS1
  | .tostrU .. | .tostrS .. => tableMask true ||| maskRS1 ||| maskRS2
  | .parse .. => tableMask false ||| maskRD ||| maskRS2
  | .cminU .. | .cminS .. | .cmaxU .. | .cmaxS .. => tableMask true ||| maskRD

/-- The pseudo-instruction `MOV rd, rs` (R94). -/
def Instr.mov (rd rs : Reg) : Instr := .or rd rs rs

/-- The pseudo-instruction `CLR rd` (R94). -/
def Instr.clr (rd : Reg) : Instr := .xor rd rd rd

/-- The pseudo-instruction `NOP` (R94). -/
def Instr.nop : Instr := .or .x0 .x0 .x0

end Sys2Proof
end

