-- ==== Sys2Proof/Machine/State.lean ====
section
/-! DEFINITION. The state of the block (10_state.md), the host's accesses that have not been served yet, what the host has
seen, and the machine right after reset (R42, R250). -/

namespace Sys2Proof.Machine

/-- The eight value registers x0..x7 (R20). -/
structure RegFile where
  x0 : Value
  x1 : Value
  x2 : Value
  x3 : Value
  x4 : Value
  x5 : Value
  x6 : Value
  x7 : Value
  deriving DecidableEq, Repr

/-- STRBUF (R36), the only byte array of the block: a list of (byte index, byte), indexes strictly rising, no byte equal to
0x00, which is what an unlisted byte reads as: its reset value (R36, R42). -/
abbrev Memory := List Host.Cell

/-- An event at the block's host side, in the order the bus delivers them (R71). -/
inductive HostEvent where
  /-- `MemRead(addr, bytes)` (R13, R62) -/
  | read (addr bytes : Nat)
  /-- `MemWrite(addr, bytes, v)` (R13, R62) -/
  | write (addr bytes : Nat) (v : Word)
  /-- the four word reads of one value register, RDX (R95, R256) -/
  | readValue (r : Reg)
  /-- the 33 word reads of STRBUF (R95, R256) -/
  | readText
  /-- the host makes no access in this cycle -/
  | idle
  /-- the reset input becomes asserted (R250) -/
  | assertReset
  /-- the reset input is released (R250) -/
  | releaseReset
  deriving DecidableEq, Repr

/-- What the host sees of one access. -/
inductive BusReply where
  /-- a read returns a word (R62) -/
  | data (v : Word)
  /-- a write completes without an error response, also one that is ignored (R34, R41) -/
  | written
  /-- four word reads, assembled (R95 RDX) -/
  | value (v : Value)
  /-- 33 word reads of STRBUF, word 0 first -/
  | text (ws : List Word)
  /-- a rejected access, seen through `BUS_ERROR_RESPONSE` (R63) -/
  | rejected (e : BusErrorResponse)
  deriving DecidableEq, Repr

/-- The errors a command can raise, codes 1 to 6 of R220. -/
inductive ErrorCode where
  | divisionByZero
  | invalidRootDegree
  | malformedLiteral
  | invalidBase
  | negativeRadicand
  | illegalCommand
  deriving DecidableEq, Repr

/-- What lies at a window offset (R40). -/
inductive WindowReg where
  /-- word `j` of a value register -/
  | value (r : Reg) (j : Nat)
  /-- CMD, offset 0x080 -/
  | cmd
  /-- STATUS, offset 0x084 -/
  | status
  /-- STRLEN, offset 0x088 -/
  | strlen
  /-- STRBUF bus word `k` -/
  | text (k : Nat)
  /-- read as zero, write ignored (R41) -/
  | reserved
  deriving DecidableEq, Repr

/-- The machine stops with a fault. -/
inductive Fault where
  /-- Raised by the serving of a host access whose address lies outside CORE_BASE..CORE_BASE + 0x1FF: it is no access of this
  block (R60), and the spec gives it no meaning here. Safe: the run stops. -/
  | outsideWindow
  deriving DecidableEq, Repr

/-- The machine gives no meaning. -/
inductive Refusal where
  /-- Raised by an arm of `exec` whose command has no meaning yet; no arm raises it now. Safe: the run stops. -/
  | notModelled (mnemonic : String)
  /-- Raised by the serving of a host access while the reset input is asserted: "The block gives no meaning to such an access.
  A model refuses it" (R253). Safe: the run stops. -/
  | accessDuringReset
  deriving DecidableEq, Repr

/-- The whole state. `x` to `strbuf` are the spec's registers; `inReset` is the level of the reset input; `wait` counts what
is left of the command's latency; `pending`, `replies` and `freeIndex` are the model's own (log entries 1, 2, 7, 8). -/
structure State where
  /-- x0..x7 (R20) -/
  x : RegFile
  /-- CMD (R25) -/
  cmd : Word
  /-- STATUS.BUSY (R27) -/
  busy : Bool
  /-- STATUS.DONE (R28) -/
  done : Bool
  /-- STATUS.CMPRES (R29) -/
  cmpres : BitVec 2
  /-- STATUS.ERR (R30) -/
  err : BitVec 4
  /-- STRLEN.LEN (R35) -/
  strlen : Byte
  /-- STRBUF[0..131] (R36) -/
  strbuf : Memory
  /-- the reset input is asserted (R250) -/
  inReset : Bool
  /-- cycles before the command in flight completes (R33); 0 where none is in flight -/
  wait : Nat
  /-- host events not yet served, the next one first -/
  pending : List HostEvent
  /-- what the host has seen, newest first -/
  replies : List BusReply
  /-- index of the next free value (P11) -/
  freeIndex : Nat
  deriving DecidableEq, Repr

/-- All eight value registers at 0 (R23). -/
def RegFile.zero : RegFile := ⟨0, 0, 0, 0, 0, 0, 0, 0⟩

/-- The machine right after reset (R42, R250, R252): every register at 0, no command in flight, reset released, and nothing
asked by the host yet. -/
def State.reset : State where
  x := .zero
  cmd := 0x00000000#32
  busy := false
  done := false
  cmpres := 0#2
  err := 0#4
  strlen := 0x00#8
  strbuf := []
  inReset := false
  wait := 0
  pending := []
  replies := []
  freeIndex := 0

/-- What `exec` and `step` answer. -/
abbrev Result := Host.Outcome State Fault Refusal

end Sys2Proof.Machine
end

