-- ==== Sys2Proof/Machine/Ops.lean ====
section
/-! DEFINITION. The named operations over the state: words of a value, the register file, STRBUF, the life cycle of a command
(acceptance R32, completion R33) and raising an error (R222), which is all the exception entry this block has (R231). -/

namespace Sys2Proof.Machine

/-! ### Words of a value (R10, R64) -/

/-- `word(v, j)`, bits 32*j+31 to 32*j (R10). -/
def word (v : Value) (j : Nat) : Word := v.extractLsb' (32 * j) 32

/-- The four words of a value, word 0 first (R64). -/
def wordsOf (v : Value) : List Word := [word v 0, word v 1, word v 2, word v 3]

/-- The number that a list of words stands for, least significant word first: the sum of `u(v)` in R11. -/
def wordsValue : List Word → Nat
  | [] => 0
  | w :: ws => w.toNat + 2 ^ 32 * wordsValue ws

/-- The value with the given words, word 0 first (R64). -/
def ofWords (ws : List Word) : Value := BitVec.ofNat 128 (wordsValue ws)

/-- The value with word `j` replaced (R64). -/
def setWord (v : Value) (j : Nat) (w : Word) : Value := ofWords ((wordsOf v).set j w)

/-! ### Value registers (R20, R83) -/

/-- Read one value register. -/
def RegFile.get (f : RegFile) : Reg → Value
  | .x0 => f.x0
  | .x1 => f.x1
  | .x2 => f.x2
  | .x3 => f.x3
  | .x4 => f.x4
  | .x5 => f.x5
  | .x6 => f.x6
  | .x7 => f.x7

/-- Write all 128 bits of one value register (R22). -/
def RegFile.set (f : RegFile) (r : Reg) (v : Value) : RegFile :=
  match r with
  | .x0 => { f with x0 := v }
  | .x1 => { f with x1 := v }
  | .x2 => { f with x2 := v }
  | .x3 => { f with x3 := v }
  | .x4 => { f with x4 := v }
  | .x5 => { f with x5 := v }
  | .x6 => { f with x6 := v }
  | .x7 => { f with x7 := v }

/-- `x[r]` (R13). -/
def readReg (r : Reg) (s : State) : Value := s.x.get r

/-- `x[r] <- v` (R13). -/
def writeReg (r : Reg) (v : Value) (s : State) : State := { s with x := s.x.set r v }

/-! ### STRBUF (R36, R66) -/

/-- The number of bytes of STRBUF (R8 STRBUF_SIZE). -/
def strbufSize : Nat := 132

/-- What an unlisted byte reads as: the reset value of every byte of STRBUF (R36, R42). -/
def unlistedByte : Byte := 0x00#8

/-- `STRBUF[a]`. -/
def Memory.read : Memory → Nat → Byte
  | [], _ => unlistedByte
  | (k, c) :: m, a => if k = a then c else Memory.read m a

/-- `STRBUF[a] <- b`, keeping the canonical form: writing the value an unlisted byte reads as removes the entry. -/
def Memory.write : Memory → Nat → Byte → Memory
  | [], a, b => if b = unlistedByte then [] else [(a, b)]
  | (k, c) :: m, a, b =>
    if k < a then (k, c) :: Memory.write m a b
    else if k = a then (if b = unlistedByte then m else (a, b) :: m)
    else (if b = unlistedByte then (k, c) :: m else (a, b) :: (k, c) :: m)

/-- The entries of a canonical memory: indexes from `lo` up, strictly rising, below the size of STRBUF, none holding the byte
that an unlisted index reads as. -/
def Memory.wfFrom (lo : Nat) : Memory → Bool
  | [] => true
  | (k, c) :: m => decide (lo ≤ k) && decide (k < strbufSize) && !(c == unlistedByte) && Memory.wfFrom (k + 1) m

/-- The canonical form of STRBUF. -/
def Memory.wf (m : Memory) : Bool := Memory.wfFrom 0 m

/-- The memory that holds `bs` from byte `k` on and 0x00 everywhere else. -/
def Memory.ofBytesFrom : Nat → List Byte → Memory
  | _, [] => []
  | k, b :: bs => if b = unlistedByte then Memory.ofBytesFrom (k + 1) bs else (k, b) :: Memory.ofBytesFrom (k + 1) bs

/-- STRBUF after all its bytes have been written: the text, then 0x00 (R186). -/
def Memory.ofText (t : List Byte) : Memory := Memory.ofBytesFrom 0 (t.take strbufSize)

/-- Byte `m` of a bus word: bits 8m+7 to 8m (R66). -/
def byteOf (w : Word) (m : Nat) : Byte := w.extractLsb' (8 * m) 8

/-- STRBUF bus word `k`: little-endian packing, `STRBUF[4k]` in bits 7:0 (R36, R66). -/
def Memory.readWord (mem : Memory) (k : Nat) : Word :=
  mem.read (4 * k + 3) ++ mem.read (4 * k + 2) ++ mem.read (4 * k + 1) ++ mem.read (4 * k)

/-- Write STRBUF bus word `k`: its four bytes (R36, R66). -/
def Memory.writeWord (mem : Memory) (k : Nat) (w : Word) : Memory :=
  (((mem.write (4 * k) (byteOf w 0)).write (4 * k + 1) (byteOf w 1)).write (4 * k + 2) (byteOf w 2)).write (4 * k + 3)
    (byteOf w 3)

/-- `STRBUF[0 .. n-1]` (R190). -/
def Memory.bytes (mem : Memory) (n : Nat) : List Byte := (List.range n).map mem.read

/-! ### The life cycle of a command -/

/-- The number of an error (R220). -/
def ErrorCode.code : ErrorCode → BitVec 4
  | .divisionByZero => 1#4
  | .invalidRootDegree => 2#4
  | .malformedLiteral => 3#4
  | .invalidBase => 4#4
  | .negativeRadicand => 5#4
  | .illegalCommand => 6#4

/-- The status a completion writes: `ERR <- code`, `DONE <- 1`, `BUSY <- 0` (R33 step 4). -/
def finish (code : BitVec 4) (s : State) : State := { s with err := code, done := true, busy := false }

/-- Completion without an error: ERR is 0 (R30, R220). -/
def retire (s : State) : State := finish 0#4 s

/-- `raise Error(e)`: the completion of a command that ended with an error writes the status and nothing else (R222). -/
def raiseError (e : ErrorCode) (s : State) : State := finish e.code s

/-- The state in which the core has no command left to complete and no error shown: what follows an error is the next
acceptance (R30, R32, R232). -/
def clearError (s : State) : State := { s with err := 0#4 }

/-- Acceptance of command word `w` (R32): CMD is latched, BUSY set, DONE and ERR cleared, and the latency of this command
begins (R9, R33). -/
def accept (w : Word) (s : State) : State :=
  let t := clearError { s with cmd := w, busy := true, done := false }
  { t with wait :=
      Config.extraLatency w (readReg (fieldRS1 w) s) (readReg (fieldRS2 w) s) s.strlen s.strbuf }

/-- The word whose rule the completion evaluates: the one latched in CMD (R33 step 1, R87). -/
def fetchCommand (s : State) : Word := s.cmd

/-- Completion with one register result (R33 steps 3 and 4). -/
def completeReg (rd : Reg) (v : Value) (s : State) : Result := .next (retire (writeReg rd v s))

/-- Completion of a rule with one register result that may end in an error (R33 step 2, R222). -/
def completeRule (rd : Reg) (r : Except ErrorCode Value) (s : State) : Result :=
  match r with
  | .ok v => completeReg rd v s
  | .error e => .next (raiseError e s)

/-- The registers, and the command in flight, at their reset values (R42, R251); what the host has asked and seen stays. -/
def resetRegisters (s : State) : State :=
  { State.reset with inReset := s.inReset, pending := s.pending, replies := s.replies, freeIndex := s.freeIndex }

end Sys2Proof.Machine
end

