-- ==== Sys2Proof/Machine/Flags.lean ====
section
/-! DEFINITION. The status word (10_state.md R26) and the one condition code of the block, STATUS.CMPRES (R29, R31). -/

namespace Sys2Proof.Machine

/-- STATUS as the host reads it: BUSY bit 0, DONE bit 1, CMPRES bits 5:4, ERR bits 11:8, every reserved bit 0 (R26). -/
def statusWord (s : State) : Word :=
  0#20 ++ s.err ++ 0#2 ++ s.cmpres ++ 0#2 ++ BitVec.ofBool s.done ++ BitVec.ofBool s.busy

/-- The CMPRES encoding of a comparison: 0 equal, 1 greater, 2 less; 3 is never written (R29, R131). -/
def cmpresOf : Ordering → BitVec 2
  | .eq => 0#2
  | .gt => 1#2
  | .lt => 2#2

/-- `STATUS.CMPRES <- r`. -/
def setCmpres (r : BitVec 2) (s : State) : State := { s with cmpres := r }

end Sys2Proof.Machine
end

