-- ==== Sys2Proof/Machine/Bus.lean ====
section
/-! DEFINITION. The register window (10_state.md R40, 20_memory.md): the map, single-word reads and writes, rejected accesses,
and the reset input. -/

namespace Sys2Proof.Machine

/-- Register `x_n` of a window offset below 0x080 (R40). -/
def Reg.ofNumber (n : Nat) : Reg := Reg.ofBits (BitVec.ofNat 3 n)

/-- The register map: what the aligned offset `off` names (R40, R41). -/
def windowReg (off : Nat) : WindowReg :=
  if off < 0x080 then .value (Reg.ofNumber (off / 0x10)) (off % 0x10 / 4)
  else if off = 0x080 then .cmd
  else if off = 0x084 then .status
  else if off = 0x088 then .strlen
  else if 0x100 ≤ off ∧ off < 0x184 then .text ((off - 0x100) / 4)
  else .reserved

/-- `MemRead(CORE_BASE + off, 4)` of a legal offset: the current contents, whatever BUSY is, with no side effect (R34, R62,
R69); a reserved offset reads as zero (R41). -/
def readWord (off : Nat) (s : State) : Word :=
  match windowReg off with
  | .value r j => word (readReg r s) j
  | .cmd => s.cmd
  | .status => statusWord s
  | .strlen => 0#24 ++ s.strlen
  | .text k => s.strbuf.readWord k
  | .reserved => 0#32

/-- `MemWrite(CORE_BASE + off, 4, v)` of a legal offset. While BUSY = 1 every write is ignored (R34). Otherwise a write to CMD
is an acceptance (R25, R32), STATUS and the reserved offsets ignore it (R26, R41), STRLEN keeps bits 7:0 (R35). -/
def writeWord (off : Nat) (v : Word) (s : State) : State :=
  if s.busy then s
  else
    match windowReg off with
    | .value r j => writeReg r (setWord (readReg r s) j v) s
    | .cmd => accept v s
    | .status => s
    | .strlen => { s with strlen := v.extractLsb' 0 8 }
    | .text k => { s with strbuf := s.strbuf.writeWord k v }
    | .reserved => s

/-- The window offset of a host address (R60); none outside the window. -/
def windowOffset (addr : Nat) : Option Nat :=
  if Config.coreBase ≤ addr ∧ addr < Config.coreBase + 0x200 then some (addr - Config.coreBase) else none

/-- The host sees `r`. -/
def reply (r : BusReply) (s : State) : State := { s with replies := r :: s.replies }

/-- A read at a window offset, or its rejection, which changes no state of the block (R62, R63). -/
def serveRead (addr off bytes : Nat) (s : State) : State :=
  if legalAccess off bytes then reply (.data (readWord off s)) s
  else reply (.rejected (Config.busErrorResponse false addr bytes)) s

/-- A write at a window offset, or its rejection, which changes no state of the block (R62, R63). -/
def serveWrite (addr off bytes : Nat) (v : Word) (s : State) : State :=
  if legalAccess off bytes then reply .written (writeWord off v s)
  else reply (.rejected (Config.busErrorResponse true addr bytes)) s

/-- The reset input becomes asserted: every register takes its reset value, a command in flight is abandoned with none of its
results written (R250, R251). -/
def assertReset (s : State) : State := { resetRegisters s with inReset := true }

/-- The reset input is released: the registers still have their reset values (R250, R252). -/
def releaseReset (s : State) : State := { s with inReset := false }

end Sys2Proof.Machine
end

