-- ==== Sys2Proof/Machine/Arith.lean ====
section
/-! DEFINITION. The arithmetic units as the spec's pseudocode gives them: adder and negation (R100, R104), comparator (R130),
multiplier and power (R140, R145), division engine (R150, R156), root finder (R170). -/

namespace Sys2Proof.Machine

/-! ### Adder and negation -/

/-- The ripple of word adders (R100), least significant word first: the carry into the next word is the exact carry of the
33-bit word sum (90_conflicts.md C1); the carry out of the last word is discarded. -/
def addWords : List Word → List Word → Nat → List Word
  | p :: ps, q :: qs, c =>
    let t := p.toNat + q.toNat + c
    BitVec.ofNat 32 t :: addWords ps qs (if t ≥ 2 ^ 32 then 1 else 0)
  | _, _, _ => []

/-- `ADD128(p, q, c0)` (R100). -/
def add128 (p q : Value) (c0 : Nat) : Value := ofWords (addWords (wordsOf p) (wordsOf q) c0)

/-- `NEG128(p)`: complement and add one (R104). -/
def neg128 (p : Value) : Value := add128 (~~~p) 0 1

/-- `a - b = a + (-b)` (R103). -/
def sub128 (a b : Value) : Value := add128 a (neg128 b) 0

/-- `neg?(v)`: the top bit of the most significant word (R11). -/
def isNeg (v : Value) : Bool := v.getLsbD 127

/-- The magnitude of a value read as signed: `|s(v)|`, also for min (R106, R156, R181). -/
def magnitude (v : Value) : Value := if isNeg v then neg128 v else v

/-! ### Comparator -/

/-- Word by word, most significant word first; equal only if all words match (R130). -/
def compareWords : List Word → List Word → Ordering
  | p :: ps, q :: qs => if p.toNat < q.toNat then .lt else if p.toNat > q.toNat then .gt else compareWords ps qs
  | _, _ => .eq

/-- `UCMP(p, q)` (R130). -/
def ucmp (p q : Value) : Ordering := compareWords (wordsOf p).reverse (wordsOf q).reverse

/-- `SCMP(p, q)`: the sign bits first (R130). -/
def scmp (p q : Value) : Ordering :=
  if isNeg p && !isNeg q then .lt
  else if !isNeg p && isNeg q then .gt
  else ucmp p q

/-- What CMP writes to x[rd]: -1, 0 or 1 (R131). -/
def compareValue : Ordering → Value
  | .lt => 0xFFFFFFFFFFFFFFFFFFFFFFFFFFFFFFFF#128
  | .eq => 0#128
  | .gt => 1#128

/-! ### Multiplier and power -/

/-- One row of the schoolbook product (R140): the words of `q` times the word `p`, added to the words `r` with a carry; a
product or carry past the last word of `r` is discarded. -/
def mulRow (p : Nat) : List Word → List Word → Nat → List Word
  | q :: qs, r :: rs, carry =>
    let t := p * q.toNat + r.toNat + carry
    BitVec.ofNat 32 t :: mulRow p qs rs (t / 2 ^ 32)
  | _, _, _ => []

/-- The rows for the words of `p`, each one word further up (R140). -/
def mulWords : List Word → List Word → List Word → List Word
  | [], _, rs => rs
  | p :: ps, qs, rs =>
    match mulRow p.toNat qs rs 0 with
    | [] => []
    | r :: rest => r :: mulWords ps qs rest

/-- `MUL128(p, q)`: the low 128 bits of the product (R140). -/
def mul128 (p q : Value) : Value := ofWords (mulWords (wordsOf p) (wordsOf q) (wordsOf 0))

/-- Square and multiply over the bits of `e` from bit `k` up, for `n` bits (R145). -/
def powLoop (e : Value) : (n k : Nat) → (r p : Value) → Value
  | 0, _, r, _ => r
  | n + 1, k, r, p => powLoop e n (k + 1) (if e.getLsbD k then mul128 r p else r) (mul128 p p)

/-- `u(a)^e` modulo 2^128, with `a^0 = 1` (R144, R145). -/
def pow128 (a e : Value) : Value := powLoop e 128 0 1 a

/-! ### Division engine -/

/-- The shift search of R150, from `k` up: while `floor(r / 2^(k+1)) >= D`, the next `k`. `fuel` bounds the search; 128 is
enough, since `r < 2^128` and `D ≥ 1`. -/
def findShift (r d : Nat) : (fuel k : Nat) → Nat
  | 0, k => k
  | fuel + 1, k => if r / 2 ^ (k + 1) ≥ d then findShift r d fuel (k + 1) else k

/-- The shift-and-subtract loop of R150: `fuel` bounds the passes; 128 is enough (R150, R159). Gives (q, r). -/
def udivLoop (d : Nat) : (fuel q r : Nat) → Nat × Nat
  | 0, q, r => (q, r)
  | fuel + 1, q, r =>
    if r ≠ 0 ∧ r ≥ d then
      let k := findShift r d 128 0
      udivLoop d fuel (q + 2 ^ k) (r - d * 2 ^ k)
    else (q, r)

/-- `UDIV(n, d)`, quotient and remainder (R150). -/
def udiv (n d : Value) : Value × Value :=
  let qr := udivLoop d.toNat 128 0 n.toNat
  (BitVec.ofNat 128 qr.1, BitVec.ofNat 128 qr.2)

/-- `SDIV(a, b)`: magnitudes through the unsigned engine, then the signs (R156). -/
def sdiv (a b : Value) : Value × Value :=
  let qr := udiv (magnitude a) (magnitude b)
  (if isNeg a ≠ isNeg b then neg128 qr.1 else qr.1, if isNeg a then neg128 qr.2 else qr.2)

/-- The rule that DIV, REM and DIVREM share: the zero test before the loop (R152), then the engine (R153, R154, R155). -/
def divideRule (signed : Bool) (a b : Value) : Except ErrorCode (Value × Value) :=
  if b = 0 then .error .divisionByZero
  else .ok (if signed then sdiv a b else udiv a b)

/-! ### Root finder -/

/-- Search for the largest `r` with `r^n <= v`, from bit `k - 1` down: a bit is kept where the power still fits. -/
def rootSearch (v n : Nat) : (k r : Nat) → Nat
  | 0, r => r
  | k + 1, r => if (r + 2 ^ k) ^ n ≤ v then rootSearch v n k (r + 2 ^ k) else rootSearch v n k r

/-- `IROOT(v, n)` for `v < 2^128` and `n ≥ 1`: the largest `r` with `r^n <= v`, exact (R170). The block may use any procedure
that returns it (R172); degrees of 128 and more are 0 or 1 at once, since `v < 2^128 <= 2^n` (R171). -/
def iroot (v n : Nat) : Nat :=
  if v = 0 then 0
  else if n ≥ 128 then 1
  else rootSearch v n 128 0

/-- The degree of ROOT: `s(b)` or `u(b)`; 0, and a negative one for S = 1, raises INVALID_ROOT_DEGREE (R171, R224). -/
def rootDegree (signed : Bool) (b : Value) : Except ErrorCode Nat :=
  if signed then (if b.toInt ≤ 0 then .error .invalidRootDegree else .ok b.toInt.toNat)
  else (if b.toNat = 0 then .error .invalidRootDegree else .ok b.toNat)

/-- The radicand: `s(a)` or `u(a)`; a negative one raises NEGATIVE_RADICAND (R171, R174, R228). -/
def radicand (signed : Bool) (a : Value) : Except ErrorCode Nat :=
  if signed then (if a.toInt < 0 then .error .negativeRadicand else .ok a.toInt.toNat)
  else .ok a.toNat

/-- The rule of ROOT (R171): the degree is tested first (R229). -/
def rootRule (signed : Bool) (a b : Value) : Except ErrorCode Value :=
  match rootDegree signed b with
  | .error e => .error e
  | .ok n =>
    match radicand signed a with
    | .error e => .error e
    | .ok v => .ok (BitVec.ofNat 128 (iroot v n))

/-- The rule of SQRT (R174): the degree is 2. -/
def sqrtRule (signed : Bool) (a : Value) : Except ErrorCode Value :=
  match radicand signed a with
  | .error e => .error e
  | .ok v => .ok (BitVec.ofNat 128 (iroot v 2))

end Sys2Proof.Machine
end

