-- ==== Sys2Proof/Machine/Operands.lean ====
section
/-! DEFINITION. Operand forms: every operand of a command is a whole value register (30_encoding.md R83, R85); EXT64 reads the
low 64 bits of one and widens them (R12, R201). -/

namespace Sys2Proof.Machine

/-- `a = x[rs1]` (R14, R83). -/
def operandA (rs1 : Reg) (s : State) : Value := readReg rs1 s

/-- `b = x[rs2]` (R14, R83). -/
def operandB (rs2 : Reg) (s : State) : Value := readReg rs2 s

/-- `a[63:0]` (R201). -/
def low64 (a : Value) : BitVec 64 := a.extractLsb' 0 64

/-- `zext_128(f)` (R12). -/
def zext128 (f : BitVec 64) : Value := f.zeroExtend 128

/-- `sext_128(f)` (R12). -/
def sext128 (f : BitVec 64) : Value := f.signExtend 128

/-- The shift count `c = u(b)`, the whole register (R120). -/
def shiftCount (b : Value) : Nat := b.toNat

end Sys2Proof.Machine
end

