-- ==== Sys2Proof/Machine/AddLogic.lean ====
section
/-! DEFINITION. Adder, negation and bitwise logic (40_add_logic.md): none sets a flag, none raises an error, S is ignored (R89). -/

namespace Sys2Proof.Machine

/-- ADD (R101): `x[rd] <- ADD128(a, b, 0)`. -/
def execAdd (rd rs1 rs2 : Reg) (s : State) : Result :=
  completeReg rd (add128 (operandA rs1 s) (operandB rs2 s) 0) s

/-- SUB (R103): `x[rd] <- ADD128(a, NEG128(b), 0)`. -/
def execSub (rd rs1 rs2 : Reg) (s : State) : Result :=
  completeReg rd (sub128 (operandA rs1 s) (operandB rs2 s)) s

/-- NEG (R105): `x[rd] <- NEG128(a)`. -/
def execNeg (rd rs1 : Reg) (s : State) : Result :=
  completeReg rd (neg128 (operandA rs1 s)) s

/-- NOT (R107): every bit of `a` complemented. -/
def execNot (rd rs1 : Reg) (s : State) : Result :=
  completeReg rd (~~~(operandA rs1 s)) s

/-- AND (R108): bit by bit. -/
def execAnd (rd rs1 rs2 : Reg) (s : State) : Result :=
  completeReg rd (operandA rs1 s &&& operandB rs2 s) s

/-- OR (R109): bit by bit. -/
def execOr (rd rs1 rs2 : Reg) (s : State) : Result :=
  completeReg rd (operandA rs1 s ||| operandB rs2 s) s

/-- XOR (R110): bit by bit. -/
def execXor (rd rs1 rs2 : Reg) (s : State) : Result :=
  completeReg rd (operandA rs1 s ^^^ operandB rs2 s) s

end Sys2Proof.Machine
end

