-- ==== Sys2Proof/Machine/Compare.lean ====
section
/-! DEFINITION. Comparison and the sign mux (42_compare.md): CMP.U and CMP.S. -/

namespace Sys2Proof.Machine

/-- The completion of a comparison with outcome `r`: x[rd] and STATUS.CMPRES together (R131). -/
def completeCompare (rd : Reg) (r : Ordering) (s : State) : Result :=
  completeReg rd (compareValue r) (setCmpres (cmpresOf r) s)

/-- CMP.U (R131): the unsigned three-way comparison. -/
def execCmpU (rd rs1 rs2 : Reg) (s : State) : Result :=
  completeCompare rd (ucmp (operandA rs1 s) (operandB rs2 s)) s

/-- CMP.S (R131): the signed three-way comparison. -/
def execCmpS (rd rs1 rs2 : Reg) (s : State) : Result :=
  completeCompare rd (scmp (operandA rs1 s) (operandB rs2 s)) s

end Sys2Proof.Machine
end

