-- ==== Sys2Proof/Machine/Constants.lean ====
section
/-! DEFINITION. Construction and bounds (47_constants.md): EXT64, CMIN and CMAX. -/

namespace Sys2Proof.Machine

/-- Signed minimum: only the top bit set (R202). -/
def signedMin : Value := 0x80000000000000000000000000000000#128

/-- Signed maximum: all bits except the top bit (R202). -/
def signedMax : Value := 0x7FFFFFFFFFFFFFFFFFFFFFFFFFFFFFFF#128

/-- Unsigned minimum (R202). -/
def unsignedMin : Value := 0x00000000000000000000000000000000#128

/-- Unsigned maximum (R202). -/
def unsignedMax : Value := 0xFFFFFFFFFFFFFFFFFFFFFFFFFFFFFFFF#128

/-- EXT64.U (R201): zero extension of bits 63:0. -/
def execExt64U (rd rs1 : Reg) (s : State) : Result :=
  completeReg rd (zext128 (low64 (operandA rs1 s))) s

/-- EXT64.S (R201): sign extension of bits 63:0. -/
def execExt64S (rd rs1 : Reg) (s : State) : Result :=
  completeReg rd (sext128 (low64 (operandA rs1 s))) s

/-- CMIN.U (R203). -/
def execCminU (rd : Reg) (s : State) : Result :=
  completeReg rd unsignedMin s

/-- CMIN.S (R203). -/
def execCminS (rd : Reg) (s : State) : Result :=
  completeReg rd signedMin s

/-- CMAX.U (R204). -/
def execCmaxU (rd : Reg) (s : State) : Result :=
  completeReg rd unsignedMax s

/-- CMAX.S (R204). -/
def execCmaxS (rd : Reg) (s : State) : Result :=
  completeReg rd signedMax s

end Sys2Proof.Machine
end

