-- ==== Sys2Proof/Machine/Text.lean ====
section
/-! DEFINITION. The base-conversion digit extractor (46_conversion.md): base check R180, magnitude R181, alphabet R182,
rendering R183, parsing R188 to R190. -/

namespace Sys2Proof.Machine

/-- The base, `u(b)`, in 2..21 (R180, R226). -/
def textBase (b : Value) : Except ErrorCode Nat :=
  if b.toNat < 2 ∨ b.toNat > 21 then .error .invalidBase else .ok b.toNat

/-- The number converted: `u(a)`, or `|s(a)|` for S = 1 (R181). -/
def convertedNumber (signed : Bool) (a : Value) : Nat :=
  if signed then (magnitude a).toNat else a.toNat

/-- Whether the text carries a minus sign (R181). -/
def convertedSign (signed : Bool) (a : Value) : Bool := signed && isNeg a

/-- The character of digit value `k`: '0'..'9' are 0x30.., 'A'..'K' are 0x41.. (R182). -/
def digitCode (k : Nat) : Byte := if k < 10 then BitVec.ofNat 8 (0x30 + k) else BitVec.ofNat 8 (0x41 + (k - 10))

/-- The minus sign (R182). -/
def minusCode : Byte := 0x2D#8

/-- The loop of RENDER (R183): prepend the character of `m mod B`, go on with `floor(m / B)` until it is 0. `fuel` bounds the
digits; 128 is enough for `m < 2^128` and `B ≥ 2`. -/
def renderLoop (base : Nat) : (fuel m : Nat) → List Byte → List Byte
  | 0, _, t => t
  | fuel + 1, m, t => if m = 0 then t else renderLoop base fuel (m / base) (digitCode (m % base) :: t)

/-- `RENDER(m, B)`; zero renders as "0" (R183). -/
def render (m base : Nat) : List Byte := if m = 0 then [digitCode 0] else renderLoop base 128 m []

/-- The rule of DIGITS (R184). -/
def digitsRule (signed : Bool) (a b : Value) : Except ErrorCode Value :=
  match textBase b with
  | .error e => .error e
  | .ok base => .ok (BitVec.ofNat 128 (render (convertedNumber signed a) base).length)

/-- The text of TOSTR: a sign if negative, then the digits of the magnitude (R186). -/
def tostrText (signed : Bool) (a : Value) (base : Nat) : List Byte :=
  (if convertedSign signed a then [minusCode] else []) ++ render (convertedNumber signed a) base

/-- The rule of TOSTR (R186). -/
def tostrRule (signed : Bool) (a b : Value) : Except ErrorCode (List Byte) :=
  match textBase b with
  | .error e => .error e
  | .ok base => .ok (tostrText signed a base)

/-- The loop of PARSE over the characters after the sign (R190): a byte that is no decimal digit below the base is malformed
(R188); the accumulation wraps (R189). -/
def parseDigits (base : Nat) : (acc : Value) → List Byte → Except ErrorCode Value
  | acc, [] => .ok acc
  | acc, c :: cs =>
    if c.toNat < 0x30 ∨ c.toNat > 0x39 ∨ c.toNat - 0x30 ≥ base then .error .malformedLiteral
    else parseDigits base
      (add128 (mul128 acc (BitVec.ofNat 128 base)) (BitVec.ofNat 128 (c.toNat - 0x30)) 0) cs

/-- One leading '-' is a sign (R188, R190); the digits after it are accumulated and negated. -/
def parseText (base : Nat) : List Byte → Except ErrorCode Value
  | [] => parseDigits base 0 []
  | c :: cs =>
    if c = minusCode then
      match parseDigits base 0 cs with
      | .ok v => .ok (neg128 v)
      | .error e => .error e
    else parseDigits base 0 (c :: cs)

/-- The rule of PARSE (R190): the base, then the length, then the characters (R229). -/
def parseRule (len : Byte) (buf : Memory) (b : Value) : Except ErrorCode Value :=
  match textBase b with
  | .error e => .error e
  | .ok base =>
    if len.toNat > strbufSize then .error .malformedLiteral
    else parseText base (buf.bytes len.toNat)

/-- Completion of TOSTR: STRLEN and all 132 bytes of STRBUF, or the error alone (R186, R222). -/
def completeText (r : Except ErrorCode (List Byte)) (s : State) : Result :=
  match r with
  | .ok t => .next (retire { s with strlen := BitVec.ofNat 8 t.length, strbuf := Memory.ofText t })
  | .error e => .next (raiseError e s)

end Sys2Proof.Machine
end

