-- ==== Sys2Proof/Machine/Conversion.lean ====
section
/-! DEFINITION. Base conversion (46_conversion.md): DIGITS, TOSTR and PARSE. -/

namespace Sys2Proof.Machine

/-- DIGITS.U (R184). -/
def execDigitsU (rd rs1 rs2 : Reg) (s : State) : Result :=
  completeRule rd (digitsRule false (operandA rs1 s) (operandB rs2 s)) s

/-- DIGITS.S (R184). -/
def execDigitsS (rd rs1 rs2 : Reg) (s : State) : Result :=
  completeRule rd (digitsRule true (operandA rs1 s) (operandB rs2 s)) s

/-- TOSTR.U (R186): the text goes to STRBUF and STRLEN. -/
def execTostrU (rs1 rs2 : Reg) (s : State) : Result :=
  completeText (tostrRule false (operandA rs1 s) (operandB rs2 s)) s

/-- TOSTR.S (R186): the text goes to STRBUF and STRLEN. -/
def execTostrS (rs1 rs2 : Reg) (s : State) : Result :=
  completeText (tostrRule true (operandA rs1 s) (operandB rs2 s)) s

/-- PARSE (R190): the text of STRBUF and STRLEN in base x[rs2]. -/
def execParse (rd rs2 : Reg) (s : State) : Result :=
  completeRule rd (parseRule s.strlen s.strbuf (operandB rs2 s)) s

end Sys2Proof.Machine
end

