-- ==== Sys2Proof/Machine/Divide.lean ====
section
/-! DEFINITION. Long-division engine (44_divide.md): DIV, REM and DIVREM, unsigned and signed. -/

namespace Sys2Proof.Machine

/-- The quotient alone (R153). -/
def quotientOf (r : Except ErrorCode (Value × Value)) : Except ErrorCode Value :=
  match r with
  | .ok qr => .ok qr.1
  | .error e => .error e

/-- The remainder alone (R154). -/
def remainderOf (r : Except ErrorCode (Value × Value)) : Except ErrorCode Value :=
  match r with
  | .ok qr => .ok qr.2
  | .error e => .error e

/-- Completion of DIVREM: the remainder is written first, so that `rd = rd2` keeps the quotient (R155, D33). -/
def completePair (rd rd2 : Reg) (r : Except ErrorCode (Value × Value)) (s : State) : Result :=
  match r with
  | .ok qr => completeReg rd qr.1 (writeReg rd2 qr.2 s)
  | .error e => .next (raiseError e s)

/-- DIV.U (R153). -/
def execDivU (rd rs1 rs2 : Reg) (s : State) : Result :=
  completeRule rd (quotientOf (divideRule false (operandA rs1 s) (operandB rs2 s))) s

/-- DIV.S (R153). -/
def execDivS (rd rs1 rs2 : Reg) (s : State) : Result :=
  completeRule rd (quotientOf (divideRule true (operandA rs1 s) (operandB rs2 s))) s

/-- REM.U (R154). -/
def execRemU (rd rs1 rs2 : Reg) (s : State) : Result :=
  completeRule rd (remainderOf (divideRule false (operandA rs1 s) (operandB rs2 s))) s

/-- REM.S (R154). -/
def execRemS (rd rs1 rs2 : Reg) (s : State) : Result :=
  completeRule rd (remainderOf (divideRule true (operandA rs1 s) (operandB rs2 s))) s

/-- DIVREM.U (R155). -/
def execDivremU (rd rd2 rs1 rs2 : Reg) (s : State) : Result :=
  completePair rd rd2 (divideRule false (operandA rs1 s) (operandB rs2 s)) s

/-- DIVREM.S (R155). -/
def execDivremS (rd rd2 rs1 rs2 : Reg) (s : State) : Result :=
  completePair rd rd2 (divideRule true (operandA rs1 s) (operandB rs2 s)) s

end Sys2Proof.Machine
end

