-- ==== Sys2Proof/Machine/Multiply.lean ====
section
/-! DEFINITION. Multiplier and power (43_multiply.md): MUL and POW; S is ignored (R142, R146). -/

namespace Sys2Proof.Machine

/-- MUL (R141): the low 128 bits of the product. -/
def execMul (rd rs1 rs2 : Reg) (s : State) : Result :=
  completeReg rd (mul128 (operandA rs1 s) (operandB rs2 s)) s

/-- POW (R144): `u(a)^u(b)` modulo 2^128. -/
def execPow (rd rs1 rs2 : Reg) (s : State) : Result :=
  completeReg rd (pow128 (operandA rs1 s) (operandB rs2 s)) s

end Sys2Proof.Machine
end

