-- ==== Sys2Proof/Machine/Root.lean ====
section
/-! DEFINITION. Root finder (45_root.md): ROOT and SQRT, unsigned and signed. -/

namespace Sys2Proof.Machine

/-- ROOT.U (R171). -/
def execRootU (rd rs1 rs2 : Reg) (s : State) : Result :=
  completeRule rd (rootRule false (operandA rs1 s) (operandB rs2 s)) s

/-- ROOT.S (R171). -/
def execRootS (rd rs1 rs2 : Reg) (s : State) : Result :=
  completeRule rd (rootRule true (operandA rs1 s) (operandB rs2 s)) s

/-- SQRT.U (R174). -/
def execSqrtU (rd rs1 : Reg) (s : State) : Result :=
  completeRule rd (sqrtRule false (operandA rs1 s)) s

/-- SQRT.S (R174). -/
def execSqrtS (rd rs1 : Reg) (s : State) : Result :=
  completeRule rd (sqrtRule true (operandA rs1 s)) s

end Sys2Proof.Machine
end

