-- ==== Sys2Proof/Machine/Shift.lean ====
section
/-! DEFINITION. Barrel shifter (41_shift.md): SLL and SRL. -/

namespace Sys2Proof.Machine

/-- The left shifter (R121): bits past bit 127 are lost, zeros enter at bit 0; a count of 128 or more gives 0 (R120). -/
def shiftLeft (a : Value) (c : Nat) : Value := if c ≥ 128 then 0 else BitVec.ofNat 128 (a.toNat * 2 ^ c)

/-- The right shifter (R122): zeros enter at bit 127, for negative values too (R123); 128 or more gives 0 (R120). -/
def shiftRight (a : Value) (c : Nat) : Value := if c ≥ 128 then 0 else BitVec.ofNat 128 (a.toNat / 2 ^ c)

/-- SLL (R121). -/
def execSll (rd rs1 rs2 : Reg) (s : State) : Result :=
  completeReg rd (shiftLeft (operandA rs1 s) (shiftCount (operandB rs2 s))) s

/-- SRL (R122), logical whatever S is (R123). -/
def execSrl (rd rs1 rs2 : Reg) (s : State) : Result :=
  completeReg rd (shiftRight (operandA rs1 s) (shiftCount (operandB rs2 s))) s

end Sys2Proof.Machine
end

