-- ==== Sys2Proof/Machine/Dispatch.lean ====
section
/-! DEFINITION. One arm per command: the rule that the row of 30_encoding.md R86 names, as its completion (10_state.md R33). -/

namespace Sys2Proof.Machine

def exec (i : Instr) (s : State) : Host.Outcome State Fault Refusal :=
  match i with
  | .add rd rs1 rs2 => Sys2Proof.Machine.execAdd rd rs1 rs2 s
  | .sub rd rs1 rs2 => Sys2Proof.Machine.execSub rd rs1 rs2 s
  | .neg rd rs1 => Sys2Proof.Machine.execNeg rd rs1 s
  | .not rd rs1 => Sys2Proof.Machine.execNot rd rs1 s
  | .and rd rs1 rs2 => Sys2Proof.Machine.execAnd rd rs1 rs2 s
  | .or rd rs1 rs2 => Sys2Proof.Machine.execOr rd rs1 rs2 s
  | .xor rd rs1 rs2 => Sys2Proof.Machine.execXor rd rs1 rs2 s
  | .sll rd rs1 rs2 => Sys2Proof.Machine.execSll rd rs1 rs2 s
  | .srl rd rs1 rs2 => Sys2Proof.Machine.execSrl rd rs1 rs2 s
  | .cmpU rd rs1 rs2 => Sys2Proof.Machine.execCmpU rd rs1 rs2 s
  | .cmpS rd rs1 rs2 => Sys2Proof.Machine.execCmpS rd rs1 rs2 s
  | .mul rd rs1 rs2 => Sys2Proof.Machine.execMul rd rs1 rs2 s
  | .divU rd rs1 rs2 => Sys2Proof.Machine.execDivU rd rs1 rs2 s
  | .divS rd rs1 rs2 => Sys2Proof.Machine.execDivS rd rs1 rs2 s
  | .remU rd rs1 rs2 => Sys2Proof.Machine.execRemU rd rs1 rs2 s
  | .remS rd rs1 rs2 => Sys2Proof.Machine.execRemS rd rs1 rs2 s
  | .divremU rd rd2 rs1 rs2 => Sys2Proof.Machine.execDivremU rd rd2 rs1 rs2 s
  | .divremS rd rd2 rs1 rs2 => Sys2Proof.Machine.execDivremS rd rd2 rs1 rs2 s
  | .pow rd rs1 rs2 => Sys2Proof.Machine.execPow rd rs1 rs2 s
  | .rootU rd rs1 rs2 => Sys2Proof.Machine.execRootU rd rs1 rs2 s
  | .rootS rd rs1 rs2 => Sys2Proof.Machine.execRootS rd rs1 rs2 s
  | .sqrtU rd rs1 => Sys2Proof.Machine.execSqrtU rd rs1 s
  | .sqrtS rd rs1 => Sys2Proof.Machine.execSqrtS rd rs1 s
  | .digitsU rd rs1 rs2 => Sys2Proof.Machine.execDigitsU rd rs1 rs2 s
  | .digitsS rd rs1 rs2 => Sys2Proof.Machine.execDigitsS rd rs1 rs2 s
  | .tostrU rs1 rs2 => Sys2Proof.Machine.execTostrU rs1 rs2 s
  | .tostrS rs1 rs2 => Sys2Proof.Machine.execTostrS rs1 rs2 s
  | .parse rd rs2 => Sys2Proof.Machine.execParse rd rs2 s
  | .ext64U rd rs1 => Sys2Proof.Machine.execExt64U rd rs1 s
  | .ext64S rd rs1 => Sys2Proof.Machine.execExt64S rd rs1 s
  | .cminU rd => Sys2Proof.Machine.execCminU rd s
  | .cminS rd => Sys2Proof.Machine.execCminS rd s
  | .cmaxU rd => Sys2Proof.Machine.execCmaxU rd s
  | .cmaxS rd => Sys2Proof.Machine.execCmaxS rd s

end Sys2Proof.Machine
end

