-- ==== Sys2Proof/Machine/Agents.lean ====
section
/-! DEFINITION. The two agents (00_scope.md R17): the core's completion of the command in flight, and the serving of the host's
next event. -/

namespace Sys2Proof.Machine

/-- Completion, the core's only step (R33): decode the word in CMD (R87) and run its rule; an illegal word raises
ILLEGAL_COMMAND (R227). -/
def complete (s : State) : Result :=
  match decodeWord (fetchCommand s) with
  | .ok i => exec i s
  | .error _ => .next (raiseError .illegalCommand s)

/-- The state after the completion of the command in flight; `s` itself where it gives none. -/
def afterCompletion (s : State) : State :=
  match complete s with
  | .next t => t
  | _ => s

/-- One word of a multi-word read made while BUSY = 1: its old or its new value, freely (R256, P11). -/
def tornChoice (n j : Nat) (old new : Word) : Word := if Config.tornWord n j then new else old

/-- The four word reads of `x[r]` (R95 RDX): its words, or, while BUSY = 1, each word old or new independently (R256). -/
def multiReadValue (r : Reg) (s : State) : Value :=
  if s.busy then
    ofWords ((List.range 4).map fun j =>
      tornChoice s.freeIndex j (word (readReg r s) j) (word (readReg r (afterCompletion s)) j))
  else ofWords ((List.range 4).map fun j => word (readReg r s) j)

/-- The 33 word reads of STRBUF, each old or new while BUSY = 1 (R256). -/
def multiReadText (s : State) : List Word :=
  if s.busy then
    (List.range 33).map fun k =>
      tornChoice s.freeIndex k (s.strbuf.readWord k) ((afterCompletion s).strbuf.readWord k)
  else (List.range 33).map s.strbuf.readWord

/-- The next free value is another one. -/
def nextFree (s : State) : State := { s with freeIndex := s.freeIndex + 1 }

/-- An access that lies in the window is served by `f` at its offset; while reset is asserted it is refused (R253); outside the
window it is no access of this block (R60). -/
def atWindow (addr : Nat) (f : Nat → State) (s : State) : Result :=
  match windowOffset addr with
  | none => .fault .outsideWindow
  | some off => if s.inReset then .refused .accessDuringReset else .next (f off)

/-- Serve one host event (R71). -/
def serveEvent (e : HostEvent) (s : State) : Result :=
  match e with
  | .read addr bytes => atWindow addr (fun off => serveRead addr off bytes s) s
  | .write addr bytes v => atWindow addr (fun off => serveWrite addr off bytes v s) s
  | .readValue r =>
    if s.inReset then .refused .accessDuringReset else .next (nextFree (reply (.value (multiReadValue r s)) s))
  | .readText =>
    if s.inReset then .refused .accessDuringReset else .next (nextFree (reply (.text (multiReadText s)) s))
  | .idle => .next s
  | .assertReset => .next (assertReset s)
  | .releaseReset => .next (releaseReset s)

/-- Serve the host's next event; where the host asks nothing, nothing changes (R239). -/
def serveHost (s : State) : Result :=
  match s.pending with
  | [] => .next s
  | e :: rest => serveEvent e { s with pending := rest }

/-- One cycle of the latency of the command in flight passes; where none is in flight nothing changes. -/
def tick (s : State) : State := if s.busy then { s with wait := s.wait - 1 } else s

/-- Completion is due: a command is in flight and its latency is over (R33). -/
def completionDue (s : State) : Bool := s.busy && s.wait == 0 && !s.inReset

/-- The next event in the single total order of R71: the completion when it is due, else the host's next event. -/
def nextEvent (s : State) : Result :=
  if completionDue s then complete s else serveHost (tick s)

end Sys2Proof.Machine
end

