-- ==== Sys2Proof/Machine/Step.lean ====
section
/-! DEFINITION. One step of the block, and the placing of a command where the next step runs it. -/

namespace Sys2Proof.Machine

/-- One step: the next event in the total order of host accesses and completions (20_memory.md R71). -/
def step (s : State) : Host.Outcome State Fault Refusal := nextEvent s

/-- `s` with the command word accepted and its latency over, so that the very next step is its completion: CMD holds it, BUSY
is 1, DONE and ERR are 0 as acceptance leaves them (R32), reset is released (log entry 2). -/
def State.withFetchWord (s : State) (nbits w : Nat) : State :=
  { s with cmd := tableWord nbits w, busy := true, done := false, err := 0#4, wait := 0, inReset := false }

end Sys2Proof.Machine
end

