-- ==== Sys2Proof/Machine/HostProgram.lean ====
section
/-! DEFINITION. The host's side of a program: the assembler's mnemonics (30_encoding.md R84, R93) and the bus accesses of the host
macros of R95. WAIT, `if` and `while` are the host's own control flow over what it has read and are no list of accesses. -/

namespace Sys2Proof.Machine

/-- `x0` to `x7` (R93). -/
def regName : Reg → String
  | .x0 => "x0"
  | .x1 => "x1"
  | .x2 => "x2"
  | .x3 => "x3"
  | .x4 => "x4"
  | .x5 => "x5"
  | .x6 => "x6"
  | .x7 => "x7"

/-- `MNEMONIC[.U|.S] operands`, the operands separated by commas (R93). -/
def asmLine (mnemonic : String) (operands : List Reg) : String :=
  mnemonic ++ " " ++ ", ".intercalate (operands.map regName)

/-- The assembler text of a command, destinations first, as the "syntax" column of R86 orders them (R84, R93). -/
def asmText : Instr → String
  | .add rd rs1 rs2 => asmLine "ADD" [rd, rs1, rs2]
  | .sub rd rs1 rs2 => asmLine "SUB" [rd, rs1, rs2]
  | .neg rd rs1 => asmLine "NEG" [rd, rs1]
  | .not rd rs1 => asmLine "NOT" [rd, rs1]
  | .and rd rs1 rs2 => asmLine "AND" [rd, rs1, rs2]
  | .or rd rs1 rs2 => asmLine "OR" [rd, rs1, rs2]
  | .xor rd rs1 rs2 => asmLine "XOR" [rd, rs1, rs2]
  | .sll rd rs1 rs2 => asmLine "SLL" [rd, rs1, rs2]
  | .srl rd rs1 rs2 => asmLine "SRL" [rd, rs1, rs2]
  | .cmpU rd rs1 rs2 => asmLine "CMP.U" [rd, rs1, rs2]
  | .cmpS rd rs1 rs2 => asmLine "CMP.S" [rd, rs1, rs2]
  | .mul rd rs1 rs2 => asmLine "MUL" [rd, rs1, rs2]
  | .divU rd rs1 rs2 => asmLine "DIV.U" [rd, rs1, rs2]
  | .divS rd rs1 rs2 => asmLine "DIV.S" [rd, rs1, rs2]
  | .remU rd rs1 rs2 => asmLine "REM.U" [rd, rs1, rs2]
  | .remS rd rs1 rs2 => asmLine "REM.S" [rd, rs1, rs2]
  | .divremU rd rd2 rs1 rs2 => asmLine "DIVREM.U" [rd, rd2, rs1, rs2]
  | .divremS rd rd2 rs1 rs2 => asmLine "DIVREM.S" [rd, rd2, rs1, rs2]
  | .pow rd rs1 rs2 => asmLine "POW" [rd, rs1, rs2]
  | .rootU rd rs1 rs2 => asmLine "ROOT.U" [rd, rs1, rs2]
  | .rootS rd rs1 rs2 => asmLine "ROOT.S" [rd, rs1, rs2]
  | .sqrtU rd rs1 => asmLine "SQRT.U" [rd, rs1]
  | .sqrtS rd rs1 => asmLine "SQRT.S" [rd, rs1]
  | .digitsU rd rs1 rs2 => asmLine "DIGITS.U" [rd, rs1, rs2]
  | .digitsS rd rs1 rs2 => asmLine "DIGITS.S" [rd, rs1, rs2]
  | .tostrU rs1 rs2 => asmLine "TOSTR.U" [rs1, rs2]
  | .tostrS rs1 rs2 => asmLine "TOSTR.S" [rs1, rs2]
  | .parse rd rs2 => asmLine "PARSE" [rd, rs2]
  | .ext64U rd rs1 => asmLine "EXT64.U" [rd, rs1]
  | .ext64S rd rs1 => asmLine "EXT64.S" [rd, rs1]
  | .cminU rd => asmLine "CMIN.U" [rd]
  | .cminS rd => asmLine "CMIN.S" [rd]
  | .cmaxU rd => asmLine "CMAX.U" [rd]
  | .cmaxS rd => asmLine "CMAX.S" [rd]

/-- `MemWrite(CORE_BASE + off, 4, v)` (R13). -/
def memWrite (off : Nat) (v : Word) : HostEvent := .write (Config.coreBase + off) 4 v

/-- `MemRead(CORE_BASE + off, 4)` (R13). -/
def memRead (off : Nat) : HostEvent := .read (Config.coreBase + off) 4

/-- `LDX xi, v`: four word writes (R95). -/
def ldx (r : Reg) (v : Value) : List HostEvent :=
  (List.range 4).map fun j => memWrite (0x10 * r.number + 4 * j) (word v j)

/-- `RDX xi`: four word reads (R95). -/
def rdx (r : Reg) : List HostEvent := (List.range 4).map fun j => memRead (0x10 * r.number + 4 * j)

/-- Byte `k` of a text; the bytes after it are zero padding (R95 LDS). -/
def textByte (t : List Byte) (k : Nat) : Byte := t.getD k 0x00#8

/-- `LDS "t"`: the STRBUF words that hold the text's characters, then STRLEN (R66, R95). -/
def lds (t : List Byte) : List HostEvent :=
  ((List.range ((t.length + 3) / 4)).map fun k =>
    memWrite (0x100 + 4 * k) (textByte t (4 * k + 3) ++ textByte t (4 * k + 2) ++ textByte t (4 * k + 1) ++ textByte t (4 * k)))
  ++ [memWrite 0x088 (BitVec.ofNat 32 t.length)]

/-- The write that starts `EXEC cmd`; the WAIT after it is the host's own loop (R95, R255). -/
def execWrite (i : Instr) : HostEvent := memWrite 0x080 (encode i)

/-- `RDSTAT`, and one poll of WAIT: one read of STATUS (R95). -/
def rdstat : HostEvent := memRead 0x084

/-- `RDS` of a text of `len` bytes: STRLEN, then the STRBUF words that hold it (R95). -/
def rds (len : Nat) : List HostEvent :=
  memRead 0x088 :: (List.range ((len + 3) / 4)).map fun k => memRead (0x100 + 4 * k)

end Sys2Proof.Machine
end

