-- ==== Sys2Proof/Safety.lean ====
section
/-! DEFINITION. The terms that claims about the block use: what a completion may change, what an error may change, the invariant
of the block, and a fault of the host program. -/

namespace Sys2Proof.Machine

/-- A fault of the host program: some access of it was rejected ("A model treats a rejected access as a fault of the host
program", R63). -/
def hostFaulted (s : State) : Bool :=
  s.replies.any fun r => match r with
    | .rejected _ => true
    | _ => false

/-- What no completion changes: CMD keeps the command word (R222), the reset input, and the host's side. -/
structure CompletionFrame (s t : State) : Prop where
  cmd : t.cmd = s.cmd
  inReset : t.inReset = s.inReset
  wait : t.wait = s.wait
  pending : t.pending = s.pending
  replies : t.replies = s.replies
  freeIndex : t.freeIndex = s.freeIndex

/-- STRLEN and every byte of STRBUF read as before. -/
structure TextKept (s t : State) : Prop where
  strlen : t.strlen = s.strlen
  strbuf : ∀ k, t.strbuf.read k = s.strbuf.read k

/-- Every value register outside `ds` reads as before. -/
def RegsKeptBut (ds : List Reg) (s t : State) : Prop := ∀ r, r ∉ ds → readReg r t = readReg r s

/-- The status a completion leaves: BUSY 0, DONE 1, ERR the code (R33). -/
structure CompletedWith (code : BitVec 4) (t : State) : Prop where
  busy : t.busy = false
  done : t.done = true
  err : t.err = code

/-- The command completed without an error; x[rd] holds `v` and nothing else but the status changed. -/
structure WritesReg (rd : Reg) (v : Value) (s t : State) : Prop where
  result : readReg rd t = v
  others : RegsKeptBut [rd] s t
  cmpres : t.cmpres = s.cmpres
  text : TextKept s t
  status : CompletedWith 0#4 t
  frame : CompletionFrame s t

/-- The command ended with error `code`: only the status changed (R222). -/
structure ErrorOnly (code : BitVec 4) (s t : State) : Prop where
  regs : RegsKeptBut [] s t
  cmpres : t.cmpres = s.cmpres
  text : TextKept s t
  status : CompletedWith code t
  frame : CompletionFrame s t

/-- The command completed without an error; STRBUF holds the text `bs` and then 0x00, STRLEN its length, and nothing else but
the status changed (R186). -/
structure WritesText (bs : List Byte) (s t : State) : Prop where
  strlen : t.strlen.toNat = bs.length
  strbuf : ∀ k, k < 132 → t.strbuf.read k = bs.getD k 0x00#8
  regs : RegsKeptBut [] s t
  cmpres : t.cmpres = s.cmpres
  status : CompletedWith 0#4 t
  frame : CompletionFrame s t

/-- A command word with operation `op` and its reserved bits 0 (R80, R87). -/
structure HasOpcode (w : Word) (op : Nat) : Prop where
  op : (w.extractLsb' 0 6).toNat = op
  res0 : w.extractLsb' 7 1 = 0#1
  res1 : w.extractLsb' 20 12 = 0#12

/-- The register that the three bits of `w` from bit `lo` up select (R83). -/
def regAt (w : Word) (lo : Nat) : Reg := Reg.ofBits (w.extractLsb' lo 3)

/-- What holds of the block in every state a run reaches: STRBUF is canonical; CMPRES is never 3 (R29) and ERR never a reserved
code (R220); while BUSY = 1, DONE and ERR are 0 (R28, R30); while BUSY = 0 no latency is left; DONE = 0 with BUSY = 0 happens
only before any command (R28); while reset is asserted every register has its reset value (R250). -/
structure BlockInv (s : State) : Prop where
  text : s.strbuf.wf = true
  cmpres : s.cmpres ≠ 3#2
  err : s.err.toNat ≤ 6
  inFlight : s.busy = true → s.done = false ∧ s.err = 0#4
  noneInFlight : s.busy = false → s.wait = 0
  beforeAny : s.busy = false → s.done = false → s.cmd = 0#32 ∧ s.err = 0#4 ∧ s.cmpres = 0#2
  held : s.inReset = true → resetRegisters s = s

/-- The alphabet "0123456789ABCDEFGHIJK" in ASCII codes (R182), written out. -/
def alphabet : List Byte :=
  [0x30, 0x31, 0x32, 0x33, 0x34, 0x35, 0x36, 0x37, 0x38, 0x39, 0x41, 0x42, 0x43, 0x44, 0x45, 0x46, 0x47, 0x48, 0x49, 0x4A, 0x4B]

/-- The digits of `m` in base `B`, most significant first, "0" for zero (R183), by Mathlib's `Nat.digits`. -/
def positional (m base : Nat) : List Nat := if m = 0 then [0] else (Nat.digits base m).reverse

/-- The text of a number with its sign, as R186 composes it. -/
def signedText (negative : Bool) (m base : Nat) : List Byte :=
  (if negative then [0x2D#8] else []) ++ (positional m base).map fun d => alphabet.getD d 0x00#8

/-- The characters PARSE reads: STRBUF[0 .. LEN-1] (R190). -/
def parsedText (s : State) : List Byte := (List.range s.strlen.toNat).map s.strbuf.read

/-- A '-' at STRBUF[0] of a text that is not empty (R190). -/
def hasMinus (text : List Byte) : Bool := text.head? == some 0x2D#8

/-- The characters after the sign (R190). -/
def afterSign (text : List Byte) : List Byte := if hasMinus text then text.tail else text

/-- Every character is a decimal digit whose value is below the base (R188). -/
def DigitsBelow (base : Nat) (text : List Byte) : Prop :=
  ∀ c ∈ text, 0x30 ≤ c.toNat ∧ c.toNat ≤ 0x39 ∧ c.toNat - 0x30 < base

/-- The number a text of decimal digit characters denotes in the base, by Mathlib's `Nat.ofDigits`. -/
def textNumber (base : Nat) (text : List Byte) : Nat := Nat.ofDigits base (text.reverse.map fun c => c.toNat - 0x30)

/-- A host event that neither resets the block nor leaves its window. -/
def Harmless : HostEvent → Prop
  | .read addr _ => ∃ off, off < 0x200 ∧ addr = Config.coreBase + off
  | .write addr _ _ => ∃ off, off < 0x200 ∧ addr = Config.coreBase + off
  | .readValue _ => True
  | .readText => True
  | .idle => True
  | .assertReset => False
  | .releaseReset => True

/-- Every register of the window has its reset value and no command is in flight (R42). -/
structure AtResetValues (s : State) : Prop where
  regs : ∀ r, readReg r s = 0
  cmd : s.cmd = 0#32
  busy : s.busy = false
  done : s.done = false
  cmpres : s.cmpres = 0#2
  err : s.err = 0#4
  strlen : s.strlen = 0#8
  strbuf : ∀ k, s.strbuf.read k = 0x00#8
  status : statusWord s = 0#32

/-- The registers of the window, and the reset input, hold the same. -/
structure SameBlock (s t : State) : Prop where
  regs : ∀ r, readReg r t = readReg r s
  cmd : t.cmd = s.cmd
  busy : t.busy = s.busy
  done : t.done = s.done
  cmpres : t.cmpres = s.cmpres
  err : t.err = s.err
  text : TextKept s t
  inReset : t.inReset = s.inReset

end Sys2Proof.Machine
end

