-- ==== Sys2Proof/Certificates/Slice0/Obligations.lean ====
section
/-! DEFINITION. The statements for the provers, from the numbered rules of spec/. -/

open Sys2Proof Sys2Proof.Machine

/-! ### Encoding (30_encoding.md) -/

/-- Decoding the assembler's word of any command gives the command back (R80, R84, R90, R93). -/
def Obligations.DecodeInvertsEncode : Prop := ∀ i : Instr, decodeWord (encode i) = .ok i

/-- A word decodes by the bits of R90's mask and the fields its row reads, and by no other bit: S on an S-independent operation
and unread register fields are ignored (R89, R90). -/
def Obligations.DecodeDependsOnlyOnReadBits : Prop :=
  ∀ (w w' : Word) (i : Instr), decodeWord w = .ok i → w' &&& readMask i = w &&& readMask i → decodeWord w' = .ok i

/-- A legal word is its command's encoding on the bits that matter (R80, R86, R90). -/
def Obligations.DecodedWordIsItsEncoding : Prop :=
  ∀ (w : Word) (i : Instr), decodeWord w = .ok i → encode i = w &&& readMask i

/-- One word per family, written out from R80 and R86, decodes to its command. -/
def Obligations.SampleWordsDecode : Prop :=
  decodeWord 0x00008B01#32 = .ok (.add .x3 .x1 .x2) ∧
  decodeWord 0x00000B04#32 = .ok (.not .x3 .x1) ∧
  decodeWord 0x00008B08#32 = .ok (.sll .x3 .x1 .x2) ∧
  decodeWord 0x00008B4A#32 = .ok (.cmpS .x3 .x1 .x2) ∧
  decodeWord 0x00008B0F#32 = .ok (.pow .x3 .x1 .x2) ∧
  decodeWord 0x00088B4E#32 = .ok (.divremS .x3 .x4 .x1 .x2) ∧
  decodeWord 0x00000B51#32 = .ok (.sqrtS .x3 .x1) ∧
  decodeWord 0x00008314#32 = .ok (.parse .x3 .x2) ∧
  decodeWord 0x00000357#32 = .ok (.cmaxS .x3)

/-- A completion decodes the word in CMD: an illegal one (exactly the four conditions of R227) ends with ILLEGAL_COMMAND and
writes nothing but the status; every other word runs a command. -/
def Obligations.IllegalWordRaisesIllegalCommand : Prop :=
  ∀ s : State, s.busy = true → s.wait = 0 → s.inReset = false →
    if s.cmd.extractLsb' 7 1 = 1#1 ∨ s.cmd.extractLsb' 20 12 ≠ 0#12 ∨ (s.cmd.extractLsb' 0 6).toNat = 0x00 ∨
        (0x18 ≤ (s.cmd.extractLsb' 0 6).toNat ∧ (s.cmd.extractLsb' 0 6).toNat ≤ 0x3F)
    then ∃ t, step s = .next t ∧ ErrorOnly 6#4 s t
    else ∃ i, decodeWord s.cmd = .ok i ∧ step s = exec i s

/-! ### The step -/

/-- When the command in flight completes and its word decodes to `i`, the step is `exec` of `i` at that very state: nothing is
added around it (R33). -/
def Obligations.StepRunsDecodedCommand : Prop :=
  ∀ (s : State) (i : Instr), s.busy = true → s.wait = 0 → s.inReset = false → decodeWord s.cmd = .ok i →
    i.wellFormed = true → step s = exec i s

/-- An idle block of which the host asks nothing does not change (R239). -/
def Obligations.IdleBlockDoesNotChange : Prop :=
  ∀ s : State, s.busy = false → s.pending = [] → step s = .next s

/-! ### Adder, negation, logic (40_add_logic.md) -/

/-- ADD, SUB and NEG for every word of their opcodes, every register choice and every state: modulo 2^128, no flag, no error
(R101, R103, R105). -/
def Obligations.AddSubNegResults : Prop :=
  (∀ w, HasOpcode w 0x01 → decodeWord w = .ok (.add (regAt w 8) (regAt w 11) (regAt w 14))) ∧
  (∀ w, HasOpcode w 0x02 → decodeWord w = .ok (.sub (regAt w 8) (regAt w 11) (regAt w 14))) ∧
  (∀ w, HasOpcode w 0x03 → decodeWord w = .ok (.neg (regAt w 8) (regAt w 11))) ∧
  (∀ rd rs1 rs2 s, ∃ t, exec (.add rd rs1 rs2) s = .next t ∧ WritesReg rd (readReg rs1 s + readReg rs2 s) s t) ∧
  (∀ rd rs1 rs2 s, ∃ t, exec (.sub rd rs1 rs2) s = .next t ∧ WritesReg rd (readReg rs1 s - readReg rs2 s) s t) ∧
  (∀ rd rs1 s, ∃ t, exec (.neg rd rs1) s = .next t ∧ WritesReg rd (-readReg rs1 s) s t)

/-- NOT, AND, OR and XOR, bit by bit, for every word of their opcodes, every register choice and every state (R107 to R110). -/
def Obligations.LogicResults : Prop :=
  (∀ w, HasOpcode w 0x04 → decodeWord w = .ok (.not (regAt w 8) (regAt w 11))) ∧
  (∀ w, HasOpcode w 0x05 → decodeWord w = .ok (.and (regAt w 8) (regAt w 11) (regAt w 14))) ∧
  (∀ w, HasOpcode w 0x06 → decodeWord w = .ok (.or (regAt w 8) (regAt w 11) (regAt w 14))) ∧
  (∀ w, HasOpcode w 0x07 → decodeWord w = .ok (.xor (regAt w 8) (regAt w 11) (regAt w 14))) ∧
  (∀ rd rs1 s, ∃ t v, exec (.not rd rs1) s = .next t ∧ WritesReg rd v s t ∧
    ∀ k, k < 128 → v.getLsbD k = !(readReg rs1 s).getLsbD k) ∧
  (∀ rd rs1 rs2 s, ∃ t v, exec (.and rd rs1 rs2) s = .next t ∧ WritesReg rd v s t ∧
    ∀ k, k < 128 → v.getLsbD k = ((readReg rs1 s).getLsbD k && (readReg rs2 s).getLsbD k)) ∧
  (∀ rd rs1 rs2 s, ∃ t v, exec (.or rd rs1 rs2) s = .next t ∧ WritesReg rd v s t ∧
    ∀ k, k < 128 → v.getLsbD k = ((readReg rs1 s).getLsbD k || (readReg rs2 s).getLsbD k)) ∧
  (∀ rd rs1 rs2 s, ∃ t v, exec (.xor rd rs1 rs2) s = .next t ∧ WritesReg rd v s t ∧
    ∀ k, k < 128 → v.getLsbD k = xor ((readReg rs1 s).getLsbD k) ((readReg rs2 s).getLsbD k))

/-- NEG read as signed: `-s(a)` but for min, which is its own negation and reads 2^127 unsigned (R106). -/
def Obligations.NegationSignedReading : Prop :=
  ∀ rd rs1 s, ∃ t, exec (.neg rd rs1) s = .next t ∧
    if readReg rs1 s = 0x80000000000000000000000000000000#128
    then (readReg rd t).toInt = (readReg rs1 s).toInt ∧ (readReg rd t).toInt = -2 ^ 127 ∧ (readReg rd t).toNat = 2 ^ 127
    else (readReg rd t).toInt = -(readReg rs1 s).toInt

/-! ### Shifter (41_shift.md) -/

/-- SLL and SRL by the whole count register; both zero-fill, and a count of 128 or more leaves 0 (R121, R122). -/
def Obligations.ShiftResults : Prop :=
  (∀ w, HasOpcode w 0x08 → decodeWord w = .ok (.sll (regAt w 8) (regAt w 11) (regAt w 14))) ∧
  (∀ w, HasOpcode w 0x09 → decodeWord w = .ok (.srl (regAt w 8) (regAt w 11) (regAt w 14))) ∧
  (∀ rd rs1 rs2 s, ∃ t, exec (.sll rd rs1 rs2) s = .next t ∧ WritesReg rd (readReg rs1 s <<< (readReg rs2 s).toNat) s t) ∧
  (∀ rd rs1 rs2 s, ∃ t, exec (.srl rd rs1 rs2) s = .next t ∧ WritesReg rd (readReg rs1 s >>> (readReg rs2 s).toNat) s t)

/-- The shift laws of R124: what SLL and SRL compute by a count is a multiplication, a division, a clearing of the top bits, and
composes by adding counts. -/
def Obligations.ShiftLaws : Prop :=
  (∀ rd rs1 rs2 s, ∃ t u, exec (.sll rd rs1 rs2) s = .next t ∧ exec (.srl rd rs1 rs2) s = .next u ∧
    readReg rd t = shiftLeft (readReg rs1 s) (readReg rs2 s).toNat ∧
    readReg rd u = shiftRight (readReg rs1 s) (readReg rs2 s).toNat) ∧
  ∀ (a : Value) (c c1 c2 : Nat),
    (c < 128 → shiftLeft a c = a * BitVec.ofNat 128 (2 ^ c)) ∧
    (c < 128 → (shiftRight a c).toNat = a.toNat / 2 ^ c) ∧
    (c < 128 → ∀ k, k < 128 → (shiftRight (shiftLeft a c) c).getLsbD k = (decide (k < 128 - c) && a.getLsbD k)) ∧
    (c1 + c2 < 128 → shiftLeft (shiftLeft a c1) c2 = shiftLeft a (c1 + c2) ∧
      shiftRight (shiftRight a c1) c2 = shiftRight a (c1 + c2)) ∧
    (128 ≤ c1 + c2 → shiftLeft (shiftLeft a c1) c2 = 0 ∧ shiftRight (shiftRight a c1) c2 = 0)

/-! ### Comparison (42_compare.md) -/

/-- CMP.U and CMP.S: x[rd] and STATUS.CMPRES together, and nothing else but the status (R131). -/
def Obligations.CompareResults : Prop :=
  (∀ w, HasOpcode w 0x0A → w.extractLsb' 6 1 = 0#1 → decodeWord w = .ok (.cmpU (regAt w 8) (regAt w 11) (regAt w 14))) ∧
  (∀ w, HasOpcode w 0x0A → w.extractLsb' 6 1 = 1#1 → decodeWord w = .ok (.cmpS (regAt w 8) (regAt w 11) (regAt w 14))) ∧
  (∀ rd rs1 rs2 s, ∃ t, exec (.cmpU rd rs1 rs2) s = .next t ∧
    ((readReg rs1 s).toNat < (readReg rs2 s).toNat → (readReg rd t).toInt = -1 ∧ t.cmpres = 2#2) ∧
    ((readReg rs1 s).toNat = (readReg rs2 s).toNat → (readReg rd t).toInt = 0 ∧ t.cmpres = 0#2) ∧
    ((readReg rs1 s).toNat > (readReg rs2 s).toNat → (readReg rd t).toInt = 1 ∧ t.cmpres = 1#2) ∧
    RegsKeptBut [rd] s t ∧ TextKept s t ∧ CompletedWith 0#4 t ∧ CompletionFrame s t) ∧
  (∀ rd rs1 rs2 s, ∃ t, exec (.cmpS rd rs1 rs2) s = .next t ∧
    ((readReg rs1 s).toInt < (readReg rs2 s).toInt → (readReg rd t).toInt = -1 ∧ t.cmpres = 2#2) ∧
    ((readReg rs1 s).toInt = (readReg rs2 s).toInt → (readReg rd t).toInt = 0 ∧ t.cmpres = 0#2) ∧
    ((readReg rs1 s).toInt > (readReg rs2 s).toInt → (readReg rd t).toInt = 1 ∧ t.cmpres = 1#2) ∧
    RegsKeptBut [rd] s t ∧ TextKept s t ∧ CompletedWith 0#4 t ∧ CompletionFrame s t)

/-- Both comparators are total orders, x[rd] is the sign of the difference, and min and max bound the signed order (R132). -/
def Obligations.ComparatorOrderLaws : Prop :=
  (∀ p q : Value, (ucmp p q = .gt ↔ ucmp q p = .lt) ∧ (ucmp p q = .eq ↔ p = q)) ∧
  (∀ p q : Value, (scmp p q = .gt ↔ scmp q p = .lt) ∧ (scmp p q = .eq ↔ p = q)) ∧
  (∀ p q r : Value, ucmp p q = .lt → ucmp q r = .lt → ucmp p r = .lt) ∧
  (∀ p q r : Value, scmp p q = .lt → scmp q r = .lt → scmp p r = .lt) ∧
  (∀ v : Value, scmp 0x80000000000000000000000000000000#128 v ≠ .gt ∧ scmp v 0x7FFFFFFFFFFFFFFFFFFFFFFFFFFFFFFF#128 ≠ .gt) ∧
  (∀ rd rs1 rs2 s, ∃ t, exec (.cmpS rd rs1 rs2) s = .next t ∧
    (readReg rd t).toInt = ((readReg rs1 s).toInt - (readReg rs2 s).toInt).sign) ∧
  (∀ rd rs1 rs2 s, ∃ t, exec (.cmpU rd rs1 rs2) s = .next t ∧
    (readReg rd t).toInt = (((readReg rs1 s).toNat : Int) - ((readReg rs2 s).toNat : Int)).sign)

/-! ### Multiplier and power (43_multiply.md) -/

/-- MUL: the low 128 bits of the product, without a signal (R141). -/
def Obligations.MultiplyResult : Prop :=
  (∀ w, HasOpcode w 0x0B → decodeWord w = .ok (.mul (regAt w 8) (regAt w 11) (regAt w 14))) ∧
  (∀ rd rs1 rs2 s, ∃ t, exec (.mul rd rs1 rs2) s = .next t ∧
    WritesReg rd (BitVec.ofNat 128 ((readReg rs1 s).toNat * (readReg rs2 s).toNat)) s t)

/-- POW: `u(a)^u(b)` modulo 2^128, `a^0 = 1` for every `a` (R144). -/
def Obligations.PowerResult : Prop :=
  (∀ w, HasOpcode w 0x0F → decodeWord w = .ok (.pow (regAt w 8) (regAt w 11) (regAt w 14))) ∧
  (∀ rd rs1 rs2 s, ∃ t, exec (.pow rd rs1 rs2) s = .next t ∧
    WritesReg rd (BitVec.ofNat 128 ((readReg rs1 s).toNat ^ (readReg rs2 s).toNat)) s t)

/-! ### Division (44_divide.md) -/

/-- DIV.U and DIV.S: the quotient (rounded toward zero for S = 1, `min / -1` wrapping to min), or DIVISION_BY_ZERO alone
(R153). -/
def Obligations.DivideResults : Prop :=
  (∀ w, HasOpcode w 0x0C → w.extractLsb' 6 1 = 0#1 → decodeWord w = .ok (.divU (regAt w 8) (regAt w 11) (regAt w 14))) ∧
  (∀ w, HasOpcode w 0x0C → w.extractLsb' 6 1 = 1#1 → decodeWord w = .ok (.divS (regAt w 8) (regAt w 11) (regAt w 14))) ∧
  (∀ rd rs1 rs2 s, if readReg rs2 s = 0
    then ∃ t, exec (.divU rd rs1 rs2) s = .next t ∧ ErrorOnly 1#4 s t
    else ∃ t, exec (.divU rd rs1 rs2) s = .next t ∧
      WritesReg rd (BitVec.ofNat 128 ((readReg rs1 s).toNat / (readReg rs2 s).toNat)) s t) ∧
  (∀ rd rs1 rs2 s, if readReg rs2 s = 0
    then ∃ t, exec (.divS rd rs1 rs2) s = .next t ∧ ErrorOnly 1#4 s t
    else ∃ t, exec (.divS rd rs1 rs2) s = .next t ∧
      WritesReg rd (BitVec.ofInt 128 ((readReg rs1 s).toInt.tdiv (readReg rs2 s).toInt)) s t)

/-- REM.U and REM.S: the remainder (with the dividend's sign for S = 1), or DIVISION_BY_ZERO alone (R154). -/
def Obligations.RemainderResults : Prop :=
  (∀ w, HasOpcode w 0x0D → w.extractLsb' 6 1 = 0#1 → decodeWord w = .ok (.remU (regAt w 8) (regAt w 11) (regAt w 14))) ∧
  (∀ w, HasOpcode w 0x0D → w.extractLsb' 6 1 = 1#1 → decodeWord w = .ok (.remS (regAt w 8) (regAt w 11) (regAt w 14))) ∧
  (∀ rd rs1 rs2 s, if readReg rs2 s = 0
    then ∃ t, exec (.remU rd rs1 rs2) s = .next t ∧ ErrorOnly 1#4 s t
    else ∃ t, exec (.remU rd rs1 rs2) s = .next t ∧
      WritesReg rd (BitVec.ofNat 128 ((readReg rs1 s).toNat % (readReg rs2 s).toNat)) s t) ∧
  (∀ rd rs1 rs2 s, if readReg rs2 s = 0
    then ∃ t, exec (.remS rd rs1 rs2) s = .next t ∧ ErrorOnly 1#4 s t
    else ∃ t, exec (.remS rd rs1 rs2) s = .next t ∧
      WritesReg rd (BitVec.ofInt 128 ((readReg rs1 s).toInt.tmod (readReg rs2 s).toInt)) s t)

/-- DIVREM.U and DIVREM.S: quotient to x[rd], remainder to x[rd2]; where they are one register it keeps the quotient; or
DIVISION_BY_ZERO alone (R155). -/
def Obligations.DivideRemainderResults : Prop :=
  (∀ w, HasOpcode w 0x0E → w.extractLsb' 6 1 = 0#1 →
    decodeWord w = .ok (.divremU (regAt w 8) (regAt w 17) (regAt w 11) (regAt w 14))) ∧
  (∀ w, HasOpcode w 0x0E → w.extractLsb' 6 1 = 1#1 →
    decodeWord w = .ok (.divremS (regAt w 8) (regAt w 17) (regAt w 11) (regAt w 14))) ∧
  (∀ rd rd2 rs1 rs2 s, if readReg rs2 s = 0
    then ∃ t, exec (.divremU rd rd2 rs1 rs2) s = .next t ∧ ErrorOnly 1#4 s t
    else ∃ t, exec (.divremU rd rd2 rs1 rs2) s = .next t ∧
      (readReg rd t).toNat = (readReg rs1 s).toNat / (readReg rs2 s).toNat ∧
      (rd2 ≠ rd → (readReg rd2 t).toNat = (readReg rs1 s).toNat % (readReg rs2 s).toNat) ∧
      RegsKeptBut [rd, rd2] s t ∧ t.cmpres = s.cmpres ∧ TextKept s t ∧ CompletedWith 0#4 t ∧ CompletionFrame s t) ∧
  (∀ rd rd2 rs1 rs2 s, if readReg rs2 s = 0
    then ∃ t, exec (.divremS rd rd2 rs1 rs2) s = .next t ∧ ErrorOnly 1#4 s t
    else ∃ t, exec (.divremS rd rd2 rs1 rs2) s = .next t ∧
      readReg rd t = BitVec.ofInt 128 ((readReg rs1 s).toInt.tdiv (readReg rs2 s).toInt) ∧
      (rd2 ≠ rd → readReg rd2 t = BitVec.ofInt 128 ((readReg rs1 s).toInt.tmod (readReg rs2 s).toInt)) ∧
      RegsKeptBut [rd, rd2] s t ∧ t.cmpres = s.cmpres ∧ TextKept s t ∧ CompletedWith 0#4 t ∧ CompletionFrame s t)

/-- The division identity in the block's own arithmetic, for S = 0 and S = 1, `(min, -1)` included (R157). -/
def Obligations.DivisionIdentity : Prop :=
  ∀ rd rd2 rs1 rs2 s, readReg rs2 s ≠ 0 → rd2 ≠ rd →
    (∃ t, exec (.divremU rd rd2 rs1 rs2) s = .next t ∧
      add128 (mul128 (readReg rd t) (readReg rs2 s)) (readReg rd2 t) 0 = readReg rs1 s) ∧
    (∃ t, exec (.divremS rd rd2 rs1 rs2) s = .next t ∧
      add128 (mul128 (readReg rd t) (readReg rs2 s)) (readReg rd2 t) 0 = readReg rs1 s)

/-! ### Roots (45_root.md) -/

/-- ROOT.U and ROOT.S: the largest `r` with `r^n <= v`; INVALID_ROOT_DEGREE before NEGATIVE_RADICAND, each alone (R171). -/
def Obligations.RootResults : Prop :=
  (∀ w, HasOpcode w 0x10 → w.extractLsb' 6 1 = 0#1 → decodeWord w = .ok (.rootU (regAt w 8) (regAt w 11) (regAt w 14))) ∧
  (∀ w, HasOpcode w 0x10 → w.extractLsb' 6 1 = 1#1 → decodeWord w = .ok (.rootS (regAt w 8) (regAt w 11) (regAt w 14))) ∧
  (∀ rd rs1 rs2 s, if (readReg rs2 s).toNat = 0
    then ∃ t, exec (.rootU rd rs1 rs2) s = .next t ∧ ErrorOnly 2#4 s t
    else ∃ t r, exec (.rootU rd rs1 rs2) s = .next t ∧ WritesReg rd r s t ∧
      r.toNat ^ (readReg rs2 s).toNat ≤ (readReg rs1 s).toNat ∧
      (readReg rs1 s).toNat < (r.toNat + 1) ^ (readReg rs2 s).toNat) ∧
  (∀ rd rs1 rs2 s, if (readReg rs2 s).toInt ≤ 0
    then ∃ t, exec (.rootS rd rs1 rs2) s = .next t ∧ ErrorOnly 2#4 s t
    else if (readReg rs1 s).toInt < 0
    then ∃ t, exec (.rootS rd rs1 rs2) s = .next t ∧ ErrorOnly 5#4 s t
    else ∃ t r, exec (.rootS rd rs1 rs2) s = .next t ∧ WritesReg rd r s t ∧
      r.toNat ^ (readReg rs2 s).toInt.toNat ≤ (readReg rs1 s).toInt.toNat ∧
      (readReg rs1 s).toInt.toNat < (r.toNat + 1) ^ (readReg rs2 s).toInt.toNat)

/-- SQRT.U and SQRT.S: the integer square root, or NEGATIVE_RADICAND alone (R174). -/
def Obligations.SquareRootResults : Prop :=
  (∀ w, HasOpcode w 0x11 → w.extractLsb' 6 1 = 0#1 → decodeWord w = .ok (.sqrtU (regAt w 8) (regAt w 11))) ∧
  (∀ w, HasOpcode w 0x11 → w.extractLsb' 6 1 = 1#1 → decodeWord w = .ok (.sqrtS (regAt w 8) (regAt w 11))) ∧
  (∀ rd rs1 s, ∃ t r, exec (.sqrtU rd rs1) s = .next t ∧ WritesReg rd r s t ∧
    r.toNat ^ 2 ≤ (readReg rs1 s).toNat ∧ (readReg rs1 s).toNat < (r.toNat + 1) ^ 2) ∧
  (∀ rd rs1 s, if (readReg rs1 s).toInt < 0
    then ∃ t, exec (.sqrtS rd rs1) s = .next t ∧ ErrorOnly 5#4 s t
    else ∃ t r, exec (.sqrtS rd rs1) s = .next t ∧ WritesReg rd r s t ∧
      (r.toNat : Int) ^ 2 ≤ (readReg rs1 s).toInt ∧ (readReg rs1 s).toInt < ((r.toNat : Int) + 1) ^ 2)

/-- The root laws of R173: the bracket, monotone in the radicand, antitone in the degree. -/
def Obligations.RootLaws : Prop :=
  ∀ v w n : Nat, v < 2 ^ 128 → w < 2 ^ 128 → 1 ≤ n →
    iroot v n ^ n ≤ v ∧ v < (iroot v n + 1) ^ n ∧ (v ≤ w → iroot v n ≤ iroot w n) ∧ iroot v (n + 1) ≤ iroot v n

/-! ### Base conversion (46_conversion.md) -/

/-- DIGITS.U and DIGITS.S: the least number of digits (at least 1) that holds the magnitude, or INVALID_BASE alone (R184). -/
def Obligations.DigitsResults : Prop :=
  (∀ w, HasOpcode w 0x12 → w.extractLsb' 6 1 = 0#1 → decodeWord w = .ok (.digitsU (regAt w 8) (regAt w 11) (regAt w 14))) ∧
  (∀ w, HasOpcode w 0x12 → w.extractLsb' 6 1 = 1#1 → decodeWord w = .ok (.digitsS (regAt w 8) (regAt w 11) (regAt w 14))) ∧
  (∀ rd rs1 rs2 s, if (readReg rs2 s).toNat < 2 ∨ (readReg rs2 s).toNat > 21
    then ∃ t, exec (.digitsU rd rs1 rs2) s = .next t ∧ ErrorOnly 4#4 s t
    else ∃ t k, exec (.digitsU rd rs1 rs2) s = .next t ∧ WritesReg rd k s t ∧ 1 ≤ k.toNat ∧
      (readReg rs1 s).toNat < (readReg rs2 s).toNat ^ k.toNat ∧
      ∀ j, 1 ≤ j → (readReg rs1 s).toNat < (readReg rs2 s).toNat ^ j → k.toNat ≤ j) ∧
  (∀ rd rs1 rs2 s, if (readReg rs2 s).toNat < 2 ∨ (readReg rs2 s).toNat > 21
    then ∃ t, exec (.digitsS rd rs1 rs2) s = .next t ∧ ErrorOnly 4#4 s t
    else ∃ t k, exec (.digitsS rd rs1 rs2) s = .next t ∧ WritesReg rd k s t ∧ 1 ≤ k.toNat ∧
      (readReg rs1 s).toInt.natAbs < (readReg rs2 s).toNat ^ k.toNat ∧
      ∀ j, 1 ≤ j → (readReg rs1 s).toInt.natAbs < (readReg rs2 s).toNat ^ j → k.toNat ≤ j)

/-- TOSTR.U and TOSTR.S: the text in the alphabet of R182, all 132 bytes of STRBUF and STRLEN, no register; or INVALID_BASE
alone (R186). -/
def Obligations.ToStringResults : Prop :=
  (∀ w, HasOpcode w 0x13 → w.extractLsb' 6 1 = 0#1 → decodeWord w = .ok (.tostrU (regAt w 11) (regAt w 14))) ∧
  (∀ w, HasOpcode w 0x13 → w.extractLsb' 6 1 = 1#1 → decodeWord w = .ok (.tostrS (regAt w 11) (regAt w 14))) ∧
  (∀ rs1 rs2 s, if (readReg rs2 s).toNat < 2 ∨ (readReg rs2 s).toNat > 21
    then ∃ t, exec (.tostrU rs1 rs2) s = .next t ∧ ErrorOnly 4#4 s t
    else ∃ t, exec (.tostrU rs1 rs2) s = .next t ∧
      WritesText (signedText false (readReg rs1 s).toNat (readReg rs2 s).toNat) s t) ∧
  (∀ rs1 rs2 s, if (readReg rs2 s).toNat < 2 ∨ (readReg rs2 s).toNat > 21
    then ∃ t, exec (.tostrS rs1 rs2) s = .next t ∧ ErrorOnly 4#4 s t
    else ∃ t, exec (.tostrS rs1 rs2) s = .next t ∧
      WritesText (signedText (decide ((readReg rs1 s).toInt < 0)) (readReg rs1 s).toInt.natAbs (readReg rs2 s).toNat) s t)

/-- PARSE: the base, then the length, then the characters; a well-formed text gives its value modulo 2^128, negated after a
leading '-' (R190). -/
def Obligations.ParseResults : Prop :=
  (∀ w, HasOpcode w 0x14 → decodeWord w = .ok (.parse (regAt w 8) (regAt w 14))) ∧
  (∀ rd rs2 s, if (readReg rs2 s).toNat < 2 ∨ (readReg rs2 s).toNat > 21
    then ∃ t, exec (.parse rd rs2) s = .next t ∧ ErrorOnly 4#4 s t
    else if s.strlen.toNat > 132
    then ∃ t, exec (.parse rd rs2) s = .next t ∧ ErrorOnly 3#4 s t
    else
      (¬ DigitsBelow (readReg rs2 s).toNat (afterSign (parsedText s)) →
        ∃ t, exec (.parse rd rs2) s = .next t ∧ ErrorOnly 3#4 s t) ∧
      (DigitsBelow (readReg rs2 s).toNat (afterSign (parsedText s)) → ∃ t, exec (.parse rd rs2) s = .next t ∧
        WritesReg rd (if hasMinus (parsedText s)
          then -BitVec.ofNat 128 (textNumber (readReg rs2 s).toNat (afterSign (parsedText s)))
          else BitVec.ofNat 128 (textNumber (readReg rs2 s).toNat (afterSign (parsedText s)))) s t))

/-- DIGITS.U gives the length of the text TOSTR.U writes, for every base 2..21 (R185, 90_conflicts.md C5). -/
def Obligations.DigitCountIsTextLength : Prop :=
  ∀ rd rs1 rs2 s, 2 ≤ (readReg rs2 s).toNat → (readReg rs2 s).toNat ≤ 21 →
    ∃ t u, exec (.digitsU rd rs1 rs2) s = .next t ∧ exec (.tostrU rs1 rs2) s = .next u ∧
      (readReg rd t).toNat = u.strlen.toNat

/-- TOSTR then PARSE in the same base gives the value back, signed or unsigned, for bases 2..10; for bases 11..21 PARSE ends
with MALFORMED_LITERAL when the text holds a letter (R191). -/
def Obligations.TextRoundTrip : Prop :=
  ∀ rd rs1 rs2 s i, (i = .tostrS rs1 rs2 ∨ i = .tostrU rs1 rs2) → 2 ≤ (readReg rs2 s).toNat → (readReg rs2 s).toNat ≤ 21 →
    ∃ t u, exec i s = .next t ∧ exec (.parse rd rs2) t = .next u ∧
      ((readReg rs2 s).toNat ≤ 10 → readReg rd u = readReg rs1 s ∧ u.err = 0#4) ∧
      ((∃ k, k < t.strlen.toNat ∧ 0x41 ≤ (t.strbuf.read k).toNat) → ErrorOnly 3#4 t u)

/-! ### Construction and bounds (47_constants.md) -/

/-- EXT64 widens bits 63:0; CMIN and CMAX give the bounds (R201, R203, R204). -/
def Obligations.ConstructionResults : Prop :=
  (∀ w, HasOpcode w 0x15 → w.extractLsb' 6 1 = 0#1 → decodeWord w = .ok (.ext64U (regAt w 8) (regAt w 11))) ∧
  (∀ w, HasOpcode w 0x15 → w.extractLsb' 6 1 = 1#1 → decodeWord w = .ok (.ext64S (regAt w 8) (regAt w 11))) ∧
  (∀ w, HasOpcode w 0x16 → w.extractLsb' 6 1 = 0#1 → decodeWord w = .ok (.cminU (regAt w 8))) ∧
  (∀ w, HasOpcode w 0x16 → w.extractLsb' 6 1 = 1#1 → decodeWord w = .ok (.cminS (regAt w 8))) ∧
  (∀ w, HasOpcode w 0x17 → w.extractLsb' 6 1 = 0#1 → decodeWord w = .ok (.cmaxU (regAt w 8))) ∧
  (∀ w, HasOpcode w 0x17 → w.extractLsb' 6 1 = 1#1 → decodeWord w = .ok (.cmaxS (regAt w 8))) ∧
  (∀ rd rs1 s, ∃ t, exec (.ext64U rd rs1) s = .next t ∧
    WritesReg rd (BitVec.ofNat 128 ((readReg rs1 s).toNat % 2 ^ 64)) s t) ∧
  (∀ rd rs1 s, ∃ t, exec (.ext64S rd rs1) s = .next t ∧
    WritesReg rd (BitVec.ofInt 128 (((readReg rs1 s).toNat : Int).bmod (2 ^ 64))) s t) ∧
  (∀ rd s, ∃ t, exec (.cminU rd) s = .next t ∧ WritesReg rd (BitVec.ofInt 128 0) s t) ∧
  (∀ rd s, ∃ t, exec (.cminS rd) s = .next t ∧ WritesReg rd (BitVec.ofInt 128 (-2 ^ 127)) s t) ∧
  (∀ rd s, ∃ t, exec (.cmaxU rd) s = .next t ∧ WritesReg rd (BitVec.ofInt 128 (2 ^ 128 - 1)) s t) ∧
  (∀ rd s, ∃ t, exec (.cmaxS rd) s = .next t ∧ WritesReg rd (BitVec.ofInt 128 (2 ^ 127 - 1)) s t)

/-! ### Errors and the status (10_state.md, 60_exceptions.md) -/

/-- Every command completes, from every state and on every operand, with a code 0 to 6 in ERR, leaving CMD and the host's side
as they are (R33, R220, R261). -/
def Obligations.EveryCommandCompletes : Prop :=
  ∀ (i : Instr) (s : State), ∃ t, exec i s = .next t ∧ t.busy = false ∧ t.done = true ∧ t.err.toNat ≤ 6 ∧ CompletionFrame s t

/-- A command that ended with an error wrote the status and nothing else (R222). -/
def Obligations.ErrorsWriteOnlyStatus : Prop :=
  (∀ (i : Instr) (s t : State), exec i s = .next t → t.err ≠ 0#4 → ErrorOnly t.err s t) ∧
  (∀ s t : State, s.busy = true → s.wait = 0 → s.inReset = false → step s = .next t → t.err ≠ 0#4 → ErrorOnly t.err s t)

/-- Only CMP.U and CMP.S write STATUS.CMPRES, and never the value 3 (R29). -/
def Obligations.OnlyCompareWritesCmpres : Prop :=
  ∀ (i : Instr) (s t : State), exec i s = .next t → t.cmpres ≠ s.cmpres →
    t.cmpres ≠ 3#2 ∧ ∃ rd rs1 rs2, i = .cmpU rd rs1 rs2 ∨ i = .cmpS rd rs1 rs2

/-- The fields of STATUS stand at their bits, reserved bits read 0, a write to it changes nothing, and it is what the host
reads at 0x084 (R26). -/
def Obligations.StatusWordLayout : Prop :=
  ∀ (s : State) (v : Word),
    (statusWord s).extractLsb' 0 1 = BitVec.ofBool s.busy ∧ (statusWord s).extractLsb' 1 1 = BitVec.ofBool s.done ∧
    (statusWord s).extractLsb' 2 2 = 0#2 ∧ (statusWord s).extractLsb' 4 2 = s.cmpres ∧
    (statusWord s).extractLsb' 6 2 = 0#2 ∧ (statusWord s).extractLsb' 8 4 = s.err ∧
    (statusWord s).extractLsb' 12 20 = 0#20 ∧ readWord 0x084 s = statusWord s ∧ writeWord 0x084 v s = s

/-! ### The register window (20_memory.md, 10_state.md) -/

/-- While BUSY = 0, a word written to a value register or STRBUF reads back, STRLEN keeps its low 8 bits, and no other window
offset reads differently (R35, R36, R40, R64, R71). -/
def Obligations.WindowReadsBackWrites : Prop :=
  ∀ (s : State) (off : Nat) (v : Word), s.busy = false → s.strbuf.wf = true → off % 4 = 0 → off < 0x200 → off ≠ 0x080 →
    ((off < 0x080 ∨ (0x100 ≤ off ∧ off < 0x184)) → readWord off (writeWord off v s) = v) ∧
    (off = 0x088 → readWord off (writeWord off v s) = v &&& 0x000000FF#32) ∧
    (∀ off', off' % 4 = 0 → off' < 0x200 → off' ≠ off → readWord off' (writeWord off v s) = readWord off' s) ∧
    (writeWord off v s).strbuf.wf = true

/-- Word `j` of a value register is bits 32*j+31 to 32*j of it (R64, R65). -/
def Obligations.ValueWordsOnTheBus : Prop :=
  ∀ (s : State) (r : Reg) (j k : Nat), j < 4 → k < 32 →
    (readWord (0x10 * r.number + 4 * j) s).getLsbD k = (readReg r s).getLsbD (32 * j + k)

/-- Character `STRBUF[4k+m]` is bits 8m+7 to 8m of the bus word at 0x100 + 4k (R66). -/
def Obligations.TextBytesOnTheBus : Prop :=
  ∀ (s : State) (k m : Nat), k < 33 → m < 4 → (readWord (0x100 + 4 * k) s).extractLsb' (8 * m) 8 = s.strbuf.read (4 * k + m)

/-- A reserved offset reads as zero; a write to it changes nothing and completes without an error response (R41). -/
def Obligations.ReservedOffsetsReadZeroIgnoreWrites : Prop :=
  ∀ (s : State) (addr off : Nat) (v : Word), off % 4 = 0 → ((0x08C ≤ off ∧ off < 0x100) ∨ (0x184 ≤ off ∧ off < 0x200)) →
    serveRead addr off 4 s = reply (.data 0#32) s ∧ serveWrite addr off 4 v s = reply .written s

/-- A write of a command word while BUSY = 0 is an acceptance: CMD, BUSY, DONE and ERR, and no operand, change (R25, R32). -/
def Obligations.CommandWriteIsAcceptance : Prop :=
  ∀ (s : State) (w : Word), s.busy = false →
    let t := writeWord 0x080 w s
    t.cmd = w ∧ t.busy = true ∧ t.done = false ∧ t.err = 0#4 ∧ t.x = s.x ∧ t.cmpres = s.cmpres ∧ t.strlen = s.strlen ∧
      t.strbuf = s.strbuf ∧ readWord 0x080 t = w

/-- While BUSY = 1, the next host write is ignored yet completes without an error response, and the next host read returns the
current contents (R34). That such a step takes one off the latency left, and that no access is served once none is left, is the
model's choice (log entry 1). -/
def Obligations.BusyWritesAreIgnored : Prop :=
  ∀ (s : State) (off : Nat) (v : Word) (rest : List HostEvent),
    s.busy = true → s.wait ≠ 0 → s.inReset = false → off % 4 = 0 → off < 0x200 →
    (s.pending = .write (Config.coreBase + off) 4 v :: rest →
      step s = .next { s with wait := s.wait - 1, pending := rest, replies := .written :: s.replies }) ∧
    (s.pending = .read (Config.coreBase + off) 4 :: rest →
      step s = .next { s with wait := s.wait - 1, pending := rest, replies := .data (readWord off s) :: s.replies })

/-- From acceptance to completion the operands and CMD stay as they are, whatever the host does: a step that leaves BUSY = 1
changed none of them, nor CMPRES (R32, R34). -/
def Obligations.OperandsStableWhileBusy : Prop :=
  ∀ s t : State, s.busy = true → step s = .next t → t.busy = true →
    t.x = s.x ∧ t.cmd = s.cmd ∧ t.strlen = s.strlen ∧ t.strbuf = s.strbuf ∧ t.cmpres = s.cmpres ∧ t.done = s.done ∧
      t.err = s.err

/-- An access that is not 32 bits wide, or not at a multiple of 4, changes no state of the block and is no command; the host
sees BUS_ERROR_RESPONSE and is at fault (R63, R240). That the step answers a next state and marks the run by `hostFaulted`,
instead of stopping it, is the model's reading (DEDUCED, log entry 5); that a due completion comes first is log entry 1. -/
def Obligations.RejectedAccessChangesNothing : Prop :=
  ∀ (s : State) (off bytes : Nat) (v : Word) (rest : List HostEvent),
    completionDue s = false → s.inReset = false → off < 0x200 → (bytes ≠ 4 ∨ off % 4 ≠ 0) →
    (s.pending = .read (Config.coreBase + off) bytes :: rest → ∃ t, step s = .next t ∧ SameBlock s t ∧ hostFaulted t = true ∧
      t.replies = .rejected (Config.busErrorResponse false (Config.coreBase + off) bytes) :: s.replies) ∧
    (s.pending = .write (Config.coreBase + off) bytes v :: rest → ∃ t, step s = .next t ∧ SameBlock s t ∧
      hostFaulted t = true ∧
      t.replies = .rejected (Config.busErrorResponse true (Config.coreBase + off) bytes) :: s.replies)

/-- LDX and RDX on an idle block: four writes put `v` into x[r] and nothing else, four reads return its words (R64, R95). -/
def Obligations.HostLoadsAndReadsValue : Prop :=
  ∀ (s : State) (r : Reg) (v : Value) (rest : List HostEvent), s.busy = false → s.inReset = false →
    (s.pending = ldx r v ++ rest → Host.Core.run Sys2Proof.core 4 s = .next
      { writeReg r v s with pending := rest, replies := .written :: .written :: .written :: .written :: s.replies }) ∧
    (s.pending = rdx r ++ rest → Host.Core.run Sys2Proof.core 4 s = .next
      { s with
        pending := rest
        replies := .data (word (readReg r s) 3) :: .data (word (readReg r s) 2) :: .data (word (readReg r s) 1) ::
          .data (word (readReg r s) 0) :: s.replies })

/-- LDS of a text of at most 132 bytes on an idle block: STRLEN is its length, the words of STRBUF that hold it are its bytes
and zero padding, and no other byte or register changes (R66, R95). -/
def Obligations.HostLoadsText : Prop :=
  ∀ (s : State) (bs : List Byte), s.busy = false → s.inReset = false → s.strbuf.wf = true → bs.length ≤ 132 →
    s.pending = lds bs →
    ∃ t, Host.Core.run Sys2Proof.core ((bs.length + 3) / 4 + 1) s = .next t ∧ t.strlen.toNat = bs.length ∧
      (∀ k, k < 4 * ((bs.length + 3) / 4) → t.strbuf.read k = bs.getD k 0x00#8) ∧
      (∀ k, 4 * ((bs.length + 3) / 4) ≤ k → t.strbuf.read k = s.strbuf.read k) ∧
      t.x = s.x ∧ t.cmd = s.cmd ∧ t.busy = false ∧ t.pending = []

/-- A multi-word read made while BUSY = 1 may be torn: each word is the old one or the one after the completion (R256; that it
is one event of the host is the model's choice, log entry 7). -/
def Obligations.TornReadWordsAreOldOrNew : Prop :=
  ∀ (s post : State) (rest : List HostEvent), s.busy = true → s.wait ≠ 0 → s.inReset = false → complete s = .next post →
    (∀ r, s.pending = .readValue r :: rest → ∃ t v, step s = .next t ∧ SameBlock s t ∧ t.replies = .value v :: s.replies ∧
      ∀ j, j < 4 → word v j = word (readReg r s) j ∨ word v j = word (readReg r post) j) ∧
    (s.pending = .readText :: rest → ∃ t ws, step s = .next t ∧ SameBlock s t ∧ t.replies = .text ws :: s.replies ∧
      ws.length = 33 ∧
      ∀ k, k < 33 → ws.getD k 0#32 = s.strbuf.readWord k ∨ ws.getD k 0#32 = post.strbuf.readWord k)

/-! ### Reset (70_reset_and_hazards.md) -/

/-- Right after reset every register has the value of R42, no command is in flight, and reset is released (R23, R42, R252). -/
def Obligations.ResetStateValues : Prop := AtResetValues State.reset ∧ State.reset.inReset = false

/-- Asserting reset puts every register at its reset value and abandons a command in flight; they stay so while it is asserted
and when it is released (R250, R251). -/
def Obligations.ResetAbandonsCommand : Prop :=
  (∀ (s : State) (rest : List HostEvent), completionDue s = false → s.pending = .assertReset :: rest →
    ∃ t, step s = .next t ∧ AtResetValues t ∧ t.inReset = true ∧ t.pending = rest) ∧
  (∀ s t : State, BlockInv s → s.inReset = true → step s = .next t → AtResetValues t)

/-- An access of the window while reset is asserted is refused (R253). -/
def Obligations.AccessDuringResetRefused : Prop :=
  ∀ (s : State) (off bytes : Nat) (v : Word) (r : Reg) (rest : List HostEvent), s.inReset = true → off < 0x200 →
    (s.pending = .read (Config.coreBase + off) bytes :: rest ∨ s.pending = .write (Config.coreBase + off) bytes v :: rest ∨
      s.pending = .readValue r :: rest ∨ s.pending = .readText :: rest) →
    step s = .refused .accessDuringReset

/-! ### Whole-machine statements -/

/-- The invariant holds right after reset (R42). -/
def Obligations.InvariantAtReset : Prop := BlockInv State.reset

/-- Every step keeps the invariant: STRBUF canonical; CMPRES never 3 and ERR never reserved; DONE and ERR 0 while BUSY = 1;
DONE = 0 with BUSY = 0 only before any command; registers at their reset values while reset is asserted (R28, R29, R30, R220,
R250). -/
def Obligations.StepKeepsInvariant : Prop := ∀ s t : State, BlockInv s → step s = .next t → BlockInv t

/-- An accepted command completes within its latency, whatever the host does meanwhile short of a reset (R33, R261). Counting
the latency in steps is the model's choice (log entry 1). -/
def Obligations.AcceptedCommandCompletes : Prop :=
  ∀ s : State, s.busy = true → s.inReset = false → (∀ e ∈ s.pending, Harmless e) →
    ∃ t, Host.Core.run Sys2Proof.core (s.wait + 1) s = .next t ∧ t.busy = false ∧ t.done = true

/-- EXEC of a command: when an idle block's host writes the encoding of `i` to CMD, the block is, after the acceptance, the
steps of the opaque latency and the completion, in the state that `i` gives on the operands as they were at the write (R32, R33,
R95, R255). Counting the latency in steps is the model's choice (log entry 1). -/
def Obligations.HostWriteRunsCommand : Prop :=
  ∀ (s : State) (i : Instr), s.busy = false → s.inReset = false → s.pending = [execWrite i] →
    ∃ t u, Host.Core.run Sys2Proof.core
        (Config.extraLatency (encode i) (readReg (fieldRS1 (encode i)) s) (readReg (fieldRS2 (encode i)) s) s.strlen
          s.strbuf + 2) s = .next t ∧
      exec i u = .next t ∧ u.x = s.x ∧ u.strlen = s.strlen ∧ u.strbuf = s.strbuf ∧ u.cmpres = s.cmpres ∧ u.cmd = encode i
end

