-- ==== Sys2Proof/Laws/State.lean ====
section
/-! SUPPORT. One lemma per field per named update of State, and the laws of the register file. -/

namespace Sys2Proof.Machine

/-! ### writeReg -/

@[simp] theorem writeReg_x (r : Reg) (v : Value) (s : State) : (writeReg r v s).x = s.x.set r v := rfl
@[simp] theorem writeReg_cmd (r : Reg) (v : Value) (s : State) : (writeReg r v s).cmd = s.cmd := rfl
@[simp] theorem writeReg_busy (r : Reg) (v : Value) (s : State) : (writeReg r v s).busy = s.busy := rfl
@[simp] theorem writeReg_done (r : Reg) (v : Value) (s : State) : (writeReg r v s).done = s.done := rfl
@[simp] theorem writeReg_cmpres (r : Reg) (v : Value) (s : State) : (writeReg r v s).cmpres = s.cmpres := rfl
@[simp] theorem writeReg_err (r : Reg) (v : Value) (s : State) : (writeReg r v s).err = s.err := rfl
@[simp] theorem writeReg_strlen (r : Reg) (v : Value) (s : State) : (writeReg r v s).strlen = s.strlen := rfl
@[simp] theorem writeReg_strbuf (r : Reg) (v : Value) (s : State) : (writeReg r v s).strbuf = s.strbuf := rfl
@[simp] theorem writeReg_inReset (r : Reg) (v : Value) (s : State) : (writeReg r v s).inReset = s.inReset := rfl
@[simp] theorem writeReg_wait (r : Reg) (v : Value) (s : State) : (writeReg r v s).wait = s.wait := rfl
@[simp] theorem writeReg_pending (r : Reg) (v : Value) (s : State) : (writeReg r v s).pending = s.pending := rfl
@[simp] theorem writeReg_replies (r : Reg) (v : Value) (s : State) : (writeReg r v s).replies = s.replies := rfl
@[simp] theorem writeReg_freeIndex (r : Reg) (v : Value) (s : State) : (writeReg r v s).freeIndex = s.freeIndex := rfl

/-! ### finish -/

@[simp] theorem finish_x (c : BitVec 4) (s : State) : (finish c s).x = s.x := rfl
@[simp] theorem finish_cmd (c : BitVec 4) (s : State) : (finish c s).cmd = s.cmd := rfl
@[simp] theorem finish_busy (c : BitVec 4) (s : State) : (finish c s).busy = false := rfl
@[simp] theorem finish_done (c : BitVec 4) (s : State) : (finish c s).done = true := rfl
@[simp] theorem finish_cmpres (c : BitVec 4) (s : State) : (finish c s).cmpres = s.cmpres := rfl
@[simp] theorem finish_err (c : BitVec 4) (s : State) : (finish c s).err = c := rfl
@[simp] theorem finish_strlen (c : BitVec 4) (s : State) : (finish c s).strlen = s.strlen := rfl
@[simp] theorem finish_strbuf (c : BitVec 4) (s : State) : (finish c s).strbuf = s.strbuf := rfl
@[simp] theorem finish_inReset (c : BitVec 4) (s : State) : (finish c s).inReset = s.inReset := rfl
@[simp] theorem finish_wait (c : BitVec 4) (s : State) : (finish c s).wait = s.wait := rfl
@[simp] theorem finish_pending (c : BitVec 4) (s : State) : (finish c s).pending = s.pending := rfl
@[simp] theorem finish_replies (c : BitVec 4) (s : State) : (finish c s).replies = s.replies := rfl
@[simp] theorem finish_freeIndex (c : BitVec 4) (s : State) : (finish c s).freeIndex = s.freeIndex := rfl

/-! ### retire -/

@[simp] theorem retire_x (s : State) : (retire s).x = s.x := rfl
@[simp] theorem retire_cmd (s : State) : (retire s).cmd = s.cmd := rfl
@[simp] theorem retire_busy (s : State) : (retire s).busy = false := rfl
@[simp] theorem retire_done (s : State) : (retire s).done = true := rfl
@[simp] theorem retire_cmpres (s : State) : (retire s).cmpres = s.cmpres := rfl
@[simp] theorem retire_err (s : State) : (retire s).err = 0#4 := rfl
@[simp] theorem retire_strlen (s : State) : (retire s).strlen = s.strlen := rfl
@[simp] theorem retire_strbuf (s : State) : (retire s).strbuf = s.strbuf := rfl
@[simp] theorem retire_inReset (s : State) : (retire s).inReset = s.inReset := rfl
@[simp] theorem retire_wait (s : State) : (retire s).wait = s.wait := rfl
@[simp] theorem retire_pending (s : State) : (retire s).pending = s.pending := rfl
@[simp] theorem retire_replies (s : State) : (retire s).replies = s.replies := rfl
@[simp] theorem retire_freeIndex (s : State) : (retire s).freeIndex = s.freeIndex := rfl

/-! ### raiseError -/

@[simp] theorem raiseError_x (e : ErrorCode) (s : State) : (raiseError e s).x = s.x := rfl
@[simp] theorem raiseError_cmd (e : ErrorCode) (s : State) : (raiseError e s).cmd = s.cmd := rfl
@[simp] theorem raiseError_busy (e : ErrorCode) (s : State) : (raiseError e s).busy = false := rfl
@[simp] theorem raiseError_done (e : ErrorCode) (s : State) : (raiseError e s).done = true := rfl
@[simp] theorem raiseError_cmpres (e : ErrorCode) (s : State) : (raiseError e s).cmpres = s.cmpres := rfl
@[simp] theorem raiseError_err (e : ErrorCode) (s : State) : (raiseError e s).err = e.code := rfl
@[simp] theorem raiseError_strlen (e : ErrorCode) (s : State) : (raiseError e s).strlen = s.strlen := rfl
@[simp] theorem raiseError_strbuf (e : ErrorCode) (s : State) : (raiseError e s).strbuf = s.strbuf := rfl
@[simp] theorem raiseError_inReset (e : ErrorCode) (s : State) : (raiseError e s).inReset = s.inReset := rfl
@[simp] theorem raiseError_wait (e : ErrorCode) (s : State) : (raiseError e s).wait = s.wait := rfl
@[simp] theorem raiseError_pending (e : ErrorCode) (s : State) : (raiseError e s).pending = s.pending := rfl
@[simp] theorem raiseError_replies (e : ErrorCode) (s : State) : (raiseError e s).replies = s.replies := rfl
@[simp] theorem raiseError_freeIndex (e : ErrorCode) (s : State) : (raiseError e s).freeIndex = s.freeIndex := rfl

/-! ### clearError -/

@[simp] theorem clearError_x (s : State) : (clearError s).x = s.x := rfl
@[simp] theorem clearError_cmd (s : State) : (clearError s).cmd = s.cmd := rfl
@[simp] theorem clearError_busy (s : State) : (clearError s).busy = s.busy := rfl
@[simp] theorem clearError_done (s : State) : (clearError s).done = s.done := rfl
@[simp] theorem clearError_cmpres (s : State) : (clearError s).cmpres = s.cmpres := rfl
@[simp] theorem clearError_err (s : State) : (clearError s).err = 0#4 := rfl
@[simp] theorem clearError_strlen (s : State) : (clearError s).strlen = s.strlen := rfl
@[simp] theorem clearError_strbuf (s : State) : (clearError s).strbuf = s.strbuf := rfl
@[simp] theorem clearError_inReset (s : State) : (clearError s).inReset = s.inReset := rfl
@[simp] theorem clearError_wait (s : State) : (clearError s).wait = s.wait := rfl
@[simp] theorem clearError_pending (s : State) : (clearError s).pending = s.pending := rfl
@[simp] theorem clearError_replies (s : State) : (clearError s).replies = s.replies := rfl
@[simp] theorem clearError_freeIndex (s : State) : (clearError s).freeIndex = s.freeIndex := rfl

/-! ### accept -/

@[simp] theorem accept_x (w : Word) (s : State) : (accept w s).x = s.x := rfl
@[simp] theorem accept_cmd (w : Word) (s : State) : (accept w s).cmd = w := rfl
@[simp] theorem accept_busy (w : Word) (s : State) : (accept w s).busy = true := rfl
@[simp] theorem accept_done (w : Word) (s : State) : (accept w s).done = false := rfl
@[simp] theorem accept_cmpres (w : Word) (s : State) : (accept w s).cmpres = s.cmpres := rfl
@[simp] theorem accept_err (w : Word) (s : State) : (accept w s).err = 0#4 := rfl
@[simp] theorem accept_strlen (w : Word) (s : State) : (accept w s).strlen = s.strlen := rfl
@[simp] theorem accept_strbuf (w : Word) (s : State) : (accept w s).strbuf = s.strbuf := rfl
@[simp] theorem accept_inReset (w : Word) (s : State) : (accept w s).inReset = s.inReset := rfl
@[simp] theorem accept_wait (w : Word) (s : State) : (accept w s).wait = Config.extraLatency w (readReg (fieldRS1 w) s) (readReg (fieldRS2 w) s) s.strlen s.strbuf := rfl
@[simp] theorem accept_pending (w : Word) (s : State) : (accept w s).pending = s.pending := rfl
@[simp] theorem accept_replies (w : Word) (s : State) : (accept w s).replies = s.replies := rfl
@[simp] theorem accept_freeIndex (w : Word) (s : State) : (accept w s).freeIndex = s.freeIndex := rfl

/-! ### setCmpres -/

@[simp] theorem setCmpres_x (c : BitVec 2) (s : State) : (setCmpres c s).x = s.x := rfl
@[simp] theorem setCmpres_cmd (c : BitVec 2) (s : State) : (setCmpres c s).cmd = s.cmd := rfl
@[simp] theorem setCmpres_busy (c : BitVec 2) (s : State) : (setCmpres c s).busy = s.busy := rfl
@[simp] theorem setCmpres_done (c : BitVec 2) (s : State) : (setCmpres c s).done = s.done := rfl
@[simp] theorem setCmpres_cmpres (c : BitVec 2) (s : State) : (setCmpres c s).cmpres = c := rfl
@[simp] theorem setCmpres_err (c : BitVec 2) (s : State) : (setCmpres c s).err = s.err := rfl
@[simp] theorem setCmpres_strlen (c : BitVec 2) (s : State) : (setCmpres c s).strlen = s.strlen := rfl
@[simp] theorem setCmpres_strbuf (c : BitVec 2) (s : State) : (setCmpres c s).strbuf = s.strbuf := rfl
@[simp] theorem setCmpres_inReset (c : BitVec 2) (s : State) : (setCmpres c s).inReset = s.inReset := rfl
@[simp] theorem setCmpres_wait (c : BitVec 2) (s : State) : (setCmpres c s).wait = s.wait := rfl
@[simp] theorem setCmpres_pending (c : BitVec 2) (s : State) : (setCmpres c s).pending = s.pending := rfl
@[simp] theorem setCmpres_replies (c : BitVec 2) (s : State) : (setCmpres c s).replies = s.replies := rfl
@[simp] theorem setCmpres_freeIndex (c : BitVec 2) (s : State) : (setCmpres c s).freeIndex = s.freeIndex := rfl

/-! ### reply -/

@[simp] theorem reply_x (r : BusReply) (s : State) : (reply r s).x = s.x := rfl
@[simp] theorem reply_cmd (r : BusReply) (s : State) : (reply r s).cmd = s.cmd := rfl
@[simp] theorem reply_busy (r : BusReply) (s : State) : (reply r s).busy = s.busy := rfl
@[simp] theorem reply_done (r : BusReply) (s : State) : (reply r s).done = s.done := rfl
@[simp] theorem reply_cmpres (r : BusReply) (s : State) : (reply r s).cmpres = s.cmpres := rfl
@[simp] theorem reply_err (r : BusReply) (s : State) : (reply r s).err = s.err := rfl
@[simp] theorem reply_strlen (r : BusReply) (s : State) : (reply r s).strlen = s.strlen := rfl
@[simp] theorem reply_strbuf (r : BusReply) (s : State) : (reply r s).strbuf = s.strbuf := rfl
@[simp] theorem reply_inReset (r : BusReply) (s : State) : (reply r s).inReset = s.inReset := rfl
@[simp] theorem reply_wait (r : BusReply) (s : State) : (reply r s).wait = s.wait := rfl
@[simp] theorem reply_pending (r : BusReply) (s : State) : (reply r s).pending = s.pending := rfl
@[simp] theorem reply_replies (r : BusReply) (s : State) : (reply r s).replies = r :: s.replies := rfl
@[simp] theorem reply_freeIndex (r : BusReply) (s : State) : (reply r s).freeIndex = s.freeIndex := rfl

/-! ### nextFree -/

@[simp] theorem nextFree_x (s : State) : (nextFree s).x = s.x := rfl
@[simp] theorem nextFree_cmd (s : State) : (nextFree s).cmd = s.cmd := rfl
@[simp] theorem nextFree_busy (s : State) : (nextFree s).busy = s.busy := rfl
@[simp] theorem nextFree_done (s : State) : (nextFree s).done = s.done := rfl
@[simp] theorem nextFree_cmpres (s : State) : (nextFree s).cmpres = s.cmpres := rfl
@[simp] theorem nextFree_err (s : State) : (nextFree s).err = s.err := rfl
@[simp] theorem nextFree_strlen (s : State) : (nextFree s).strlen = s.strlen := rfl
@[simp] theorem nextFree_strbuf (s : State) : (nextFree s).strbuf = s.strbuf := rfl
@[simp] theorem nextFree_inReset (s : State) : (nextFree s).inReset = s.inReset := rfl
@[simp] theorem nextFree_wait (s : State) : (nextFree s).wait = s.wait := rfl
@[simp] theorem nextFree_pending (s : State) : (nextFree s).pending = s.pending := rfl
@[simp] theorem nextFree_replies (s : State) : (nextFree s).replies = s.replies := rfl
@[simp] theorem nextFree_freeIndex (s : State) : (nextFree s).freeIndex = s.freeIndex + 1 := rfl

/-! ### releaseReset -/

@[simp] theorem releaseReset_x (s : State) : (releaseReset s).x = s.x := rfl
@[simp] theorem releaseReset_cmd (s : State) : (releaseReset s).cmd = s.cmd := rfl
@[simp] theorem releaseReset_busy (s : State) : (releaseReset s).busy = s.busy := rfl
@[simp] theorem releaseReset_done (s : State) : (releaseReset s).done = s.done := rfl
@[simp] theorem releaseReset_cmpres (s : State) : (releaseReset s).cmpres = s.cmpres := rfl
@[simp] theorem releaseReset_err (s : State) : (releaseReset s).err = s.err := rfl
@[simp] theorem releaseReset_strlen (s : State) : (releaseReset s).strlen = s.strlen := rfl
@[simp] theorem releaseReset_strbuf (s : State) : (releaseReset s).strbuf = s.strbuf := rfl
@[simp] theorem releaseReset_inReset (s : State) : (releaseReset s).inReset = false := rfl
@[simp] theorem releaseReset_wait (s : State) : (releaseReset s).wait = s.wait := rfl
@[simp] theorem releaseReset_pending (s : State) : (releaseReset s).pending = s.pending := rfl
@[simp] theorem releaseReset_replies (s : State) : (releaseReset s).replies = s.replies := rfl
@[simp] theorem releaseReset_freeIndex (s : State) : (releaseReset s).freeIndex = s.freeIndex := rfl

/-! ### assertReset -/

@[simp] theorem assertReset_x (s : State) : (assertReset s).x = .zero := rfl
@[simp] theorem assertReset_cmd (s : State) : (assertReset s).cmd = 0#32 := rfl
@[simp] theorem assertReset_busy (s : State) : (assertReset s).busy = false := rfl
@[simp] theorem assertReset_done (s : State) : (assertReset s).done = false := rfl
@[simp] theorem assertReset_cmpres (s : State) : (assertReset s).cmpres = 0#2 := rfl
@[simp] theorem assertReset_err (s : State) : (assertReset s).err = 0#4 := rfl
@[simp] theorem assertReset_strlen (s : State) : (assertReset s).strlen = 0#8 := rfl
@[simp] theorem assertReset_strbuf (s : State) : (assertReset s).strbuf = [] := rfl
@[simp] theorem assertReset_inReset (s : State) : (assertReset s).inReset = true := rfl
@[simp] theorem assertReset_wait (s : State) : (assertReset s).wait = 0 := rfl
@[simp] theorem assertReset_pending (s : State) : (assertReset s).pending = s.pending := rfl
@[simp] theorem assertReset_replies (s : State) : (assertReset s).replies = s.replies := rfl
@[simp] theorem assertReset_freeIndex (s : State) : (assertReset s).freeIndex = s.freeIndex := rfl

/-! ### resetRegisters -/

@[simp] theorem resetRegisters_x (s : State) : (resetRegisters s).x = .zero := rfl
@[simp] theorem resetRegisters_cmd (s : State) : (resetRegisters s).cmd = 0#32 := rfl
@[simp] theorem resetRegisters_busy (s : State) : (resetRegisters s).busy = false := rfl
@[simp] theorem resetRegisters_done (s : State) : (resetRegisters s).done = false := rfl
@[simp] theorem resetRegisters_cmpres (s : State) : (resetRegisters s).cmpres = 0#2 := rfl
@[simp] theorem resetRegisters_err (s : State) : (resetRegisters s).err = 0#4 := rfl
@[simp] theorem resetRegisters_strlen (s : State) : (resetRegisters s).strlen = 0#8 := rfl
@[simp] theorem resetRegisters_strbuf (s : State) : (resetRegisters s).strbuf = [] := rfl
@[simp] theorem resetRegisters_inReset (s : State) : (resetRegisters s).inReset = s.inReset := rfl
@[simp] theorem resetRegisters_wait (s : State) : (resetRegisters s).wait = 0 := rfl
@[simp] theorem resetRegisters_pending (s : State) : (resetRegisters s).pending = s.pending := rfl
@[simp] theorem resetRegisters_replies (s : State) : (resetRegisters s).replies = s.replies := rfl
@[simp] theorem resetRegisters_freeIndex (s : State) : (resetRegisters s).freeIndex = s.freeIndex := rfl

/-! ### withFetchWord -/

@[simp] theorem withFetchWord_x (s : State) (n w : Nat) : (s.withFetchWord n w).x = s.x := rfl
@[simp] theorem withFetchWord_cmd (s : State) (n w : Nat) : (s.withFetchWord n w).cmd = tableWord n w := rfl
@[simp] theorem withFetchWord_busy (s : State) (n w : Nat) : (s.withFetchWord n w).busy = true := rfl
@[simp] theorem withFetchWord_done (s : State) (n w : Nat) : (s.withFetchWord n w).done = false := rfl
@[simp] theorem withFetchWord_cmpres (s : State) (n w : Nat) : (s.withFetchWord n w).cmpres = s.cmpres := rfl
@[simp] theorem withFetchWord_err (s : State) (n w : Nat) : (s.withFetchWord n w).err = 0#4 := rfl
@[simp] theorem withFetchWord_strlen (s : State) (n w : Nat) : (s.withFetchWord n w).strlen = s.strlen := rfl
@[simp] theorem withFetchWord_strbuf (s : State) (n w : Nat) : (s.withFetchWord n w).strbuf = s.strbuf := rfl
@[simp] theorem withFetchWord_inReset (s : State) (n w : Nat) : (s.withFetchWord n w).inReset = false := rfl
@[simp] theorem withFetchWord_wait (s : State) (n w : Nat) : (s.withFetchWord n w).wait = 0 := rfl
@[simp] theorem withFetchWord_pending (s : State) (n w : Nat) : (s.withFetchWord n w).pending = s.pending := rfl
@[simp] theorem withFetchWord_replies (s : State) (n w : Nat) : (s.withFetchWord n w).replies = s.replies := rfl
@[simp] theorem withFetchWord_freeIndex (s : State) (n w : Nat) : (s.withFetchWord n w).freeIndex = s.freeIndex := rfl

/-! ### tick -/

@[simp] theorem tick_x (s : State) : (tick s).x = s.x := by unfold tick; split <;> rfl
@[simp] theorem tick_cmd (s : State) : (tick s).cmd = s.cmd := by unfold tick; split <;> rfl
@[simp] theorem tick_busy (s : State) : (tick s).busy = s.busy := by unfold tick; split <;> rfl
@[simp] theorem tick_done (s : State) : (tick s).done = s.done := by unfold tick; split <;> rfl
@[simp] theorem tick_cmpres (s : State) : (tick s).cmpres = s.cmpres := by unfold tick; split <;> rfl
@[simp] theorem tick_err (s : State) : (tick s).err = s.err := by unfold tick; split <;> rfl
@[simp] theorem tick_strlen (s : State) : (tick s).strlen = s.strlen := by unfold tick; split <;> rfl
@[simp] theorem tick_strbuf (s : State) : (tick s).strbuf = s.strbuf := by unfold tick; split <;> rfl
@[simp] theorem tick_inReset (s : State) : (tick s).inReset = s.inReset := by unfold tick; split <;> rfl
@[simp] theorem tick_wait (s : State) : (tick s).wait = if s.busy then s.wait - 1 else s.wait := by
  unfold tick; split <;> rfl
@[simp] theorem tick_pending (s : State) : (tick s).pending = s.pending := by unfold tick; split <;> rfl
@[simp] theorem tick_replies (s : State) : (tick s).replies = s.replies := by unfold tick; split <;> rfl
@[simp] theorem tick_freeIndex (s : State) : (tick s).freeIndex = s.freeIndex := by unfold tick; split <;> rfl

/-! ### the register file -/

@[simp] theorem RegFile.get_set_same (f : RegFile) (r : Reg) (v : Value) : (f.set r v).get r = v := by
  cases r <;> rfl

theorem RegFile.get_set_ne (f : RegFile) (r q : Reg) (v : Value) (h : q ≠ r) : (f.set r v).get q = f.get q := by
  cases r <;> cases q <;> first | rfl | exact absurd rfl h

@[simp] theorem RegFile.get_zero (r : Reg) : RegFile.zero.get r = 0 := by cases r <;> rfl

/-- Two register files that read the same everywhere are equal. -/
theorem RegFile.ext_get (f g : RegFile) (h : ∀ r, f.get r = g.get r) : f = g := by
  cases f; cases g
  simp only [RegFile.mk.injEq]
  exact ⟨h .x0, h .x1, h .x2, h .x3, h .x4, h .x5, h .x6, h .x7⟩

@[simp] theorem readReg_writeReg_same (r : Reg) (v : Value) (s : State) : readReg r (writeReg r v s) = v :=
  RegFile.get_set_same s.x r v

theorem readReg_writeReg_ne (r q : Reg) (v : Value) (s : State) (h : q ≠ r) : readReg q (writeReg r v s) = readReg q s :=
  RegFile.get_set_ne s.x r q v h

@[simp] theorem readReg_finish (c : BitVec 4) (s : State) (q : Reg) : readReg q (finish c s) = readReg q s := rfl
@[simp] theorem readReg_retire (s : State) (q : Reg) : readReg q (retire s) = readReg q s := rfl
@[simp] theorem readReg_raiseError (e : ErrorCode) (s : State) (q : Reg) : readReg q (raiseError e s) = readReg q s := rfl
@[simp] theorem readReg_clearError (s : State) (q : Reg) : readReg q (clearError s) = readReg q s := rfl
@[simp] theorem readReg_accept (w : Word) (s : State) (q : Reg) : readReg q (accept w s) = readReg q s := rfl
@[simp] theorem readReg_setCmpres (c : BitVec 2) (s : State) (q : Reg) : readReg q (setCmpres c s) = readReg q s := rfl
@[simp] theorem readReg_reply (y : BusReply) (s : State) (q : Reg) : readReg q (reply y s) = readReg q s := rfl
@[simp] theorem readReg_nextFree (s : State) (q : Reg) : readReg q (nextFree s) = readReg q s := rfl
@[simp] theorem readReg_releaseReset (s : State) (q : Reg) : readReg q (releaseReset s) = readReg q s := rfl
@[simp] theorem readReg_assertReset (s : State) (q : Reg) : readReg q (assertReset s) = 0 := by cases q <;> rfl
@[simp] theorem readReg_resetRegisters (s : State) (q : Reg) : readReg q (resetRegisters s) = 0 := by cases q <;> rfl
@[simp] theorem readReg_withFetchWord (s : State) (n w : Nat) (q : Reg) : readReg q (s.withFetchWord n w) = readReg q s := rfl
@[simp] theorem readReg_tick (s : State) (q : Reg) : readReg q (tick s) = readReg q s := by simp [readReg]

end Sys2Proof.Machine
end

