-- ==== Sys2Proof/Laws/Bus.lean ====
section
/-! SUPPORT. What a step can do (R71): complete the command, or serve the host's next event; and what serving each event can
do. -/

namespace Sys2Proof.Machine

/-- An address of the window is its base and an offset below 0x200 (R60). -/
theorem windowOffset_eq_some (addr off : Nat) :
    windowOffset addr = some off ↔ addr = Config.coreBase + off ∧ off < 0x200 := by
  unfold windowOffset
  split
  · rename_i h
    simp only [Option.some.injEq]
    omega
  · rename_i h
    simp only [reduceCtorEq, false_iff]
    omega

/-- An access answered with a next state lies in the window, and reset is not asserted. -/
theorem atWindow_next (addr : Nat) (f : Nat → State) (s t : State) (h : atWindow addr f s = .next t) :
    ∃ off, off < 0x200 ∧ addr = Config.coreBase + off ∧ s.inReset = false ∧ t = f off := by
  unfold atWindow at h
  split at h
  · cases h
  · rename_i off hoff
    obtain ⟨h1, h2⟩ := (windowOffset_eq_some addr off).mp hoff
    cases hr : s.inReset with
    | true => rw [hr] at h; cases h
    | false =>
      rw [hr] at h
      cases h
      exact ⟨off, h2, h1, rfl, rfl⟩

/-- A read serves the word or a rejection; either way only what the host has seen changes (R63, R69). -/
theorem serveRead_cases (addr off bytes : Nat) (s : State) :
    (legalAccess off bytes = true ∧ serveRead addr off bytes s = reply (.data (readWord off s)) s) ∨
      (legalAccess off bytes = false ∧
        serveRead addr off bytes s = reply (.rejected (Config.busErrorResponse false addr bytes)) s) := by
  unfold serveRead
  cases legalAccess off bytes <;> simp

/-- A write serves or is rejected; a rejected one changes only what the host has seen (R63). -/
theorem serveWrite_cases (addr off bytes : Nat) (v : Word) (s : State) :
    (legalAccess off bytes = true ∧ serveWrite addr off bytes v s = reply .written (writeWord off v s)) ∨
      (legalAccess off bytes = false ∧
        serveWrite addr off bytes v s = reply (.rejected (Config.busErrorResponse true addr bytes)) s) := by
  unfold serveWrite
  cases legalAccess off bytes <;> simp

/-- While BUSY = 1 a write is ignored (R34). -/
theorem writeWord_busy (off : Nat) (v : Word) (s : State) (h : s.busy = true) : writeWord off v s = s := by
  simp [writeWord, h]

/-- A write while BUSY = 0 (R25, R26, R32, R35, R36, R41). -/
theorem writeWord_idle (off : Nat) (v : Word) (s : State) (h : s.busy = false) :
    writeWord off v s = match windowReg off with
      | .value r j => writeReg r (setWord (readReg r s) j v) s
      | .cmd => accept v s
      | .status => s
      | .strlen => { s with strlen := v.extractLsb' 0 8 }
      | .text k => { s with strbuf := s.strbuf.writeWord k v }
      | .reserved => s := by
  cases hw : windowReg off <;> simp [writeWord, h, hw]

/-- Only the 33 words of STRBUF are text words (R36, R40). -/
theorem windowReg_text (off k : Nat) (h : windowReg off = .text k) : k < 33 ∧ 0x100 ≤ off ∧ k = (off - 0x100) / 4 := by
  unfold windowReg at h
  split at h
  · cases h
  · split at h
    · cases h
    · split at h
      · cases h
      · split at h
        · cases h
        · split at h
          · rename_i h1
            cases h
            exact ⟨by omega, h1.1, rfl⟩
          · cases h

/-- Serving a host event that answers a next state does one of these (R71). -/
theorem serveEvent_cases (e : HostEvent) (s t : State) (h : serveEvent e s = .next t) :
    (∃ addr bytes off, e = .read addr bytes ∧ off < 0x200 ∧ addr = Config.coreBase + off ∧ s.inReset = false ∧
        t = serveRead addr off bytes s) ∨
    (∃ addr bytes v off, e = .write addr bytes v ∧ off < 0x200 ∧ addr = Config.coreBase + off ∧ s.inReset = false ∧
        t = serveWrite addr off bytes v s) ∨
    (∃ y, s.inReset = false ∧ t = nextFree (reply y s)) ∨
    (e = .idle ∧ t = s) ∨
    (e = .assertReset ∧ t = assertReset s) ∨
    (e = .releaseReset ∧ t = releaseReset s) := by
  cases e with
  | read addr bytes =>
    obtain ⟨off, h1, h2, h3, h4⟩ := atWindow_next _ _ _ _ h
    exact .inl ⟨addr, bytes, off, rfl, h1, h2, h3, h4⟩
  | write addr bytes v =>
    obtain ⟨off, h1, h2, h3, h4⟩ := atWindow_next _ _ _ _ h
    exact .inr (.inl ⟨addr, bytes, v, off, rfl, h1, h2, h3, h4⟩)
  | readValue r =>
    cases hr : s.inReset with
    | true => simp [serveEvent, hr] at h
    | false =>
      simp only [serveEvent, hr, Bool.false_eq_true, if_false, Host.Outcome.next.injEq] at h
      exact .inr (.inr (.inl ⟨_, rfl, h.symm⟩))
  | readText =>
    cases hr : s.inReset with
    | true => simp [serveEvent, hr] at h
    | false =>
      simp only [serveEvent, hr, Bool.false_eq_true, if_false, Host.Outcome.next.injEq] at h
      exact .inr (.inr (.inl ⟨_, rfl, h.symm⟩))
  | idle =>
    simp only [serveEvent, Host.Outcome.next.injEq] at h
    exact .inr (.inr (.inr (.inl ⟨rfl, h.symm⟩)))
  | assertReset =>
    simp only [serveEvent, Host.Outcome.next.injEq] at h
    exact .inr (.inr (.inr (.inr (.inl ⟨rfl, h.symm⟩))))
  | releaseReset =>
    simp only [serveEvent, Host.Outcome.next.injEq] at h
    exact .inr (.inr (.inr (.inr (.inr ⟨rfl, h.symm⟩))))

/-- Completion is due exactly when a command is in flight, its latency is over and reset is not asserted. -/
theorem completionDue_iff (s : State) : completionDue s = true ↔ s.busy = true ∧ s.wait = 0 ∧ s.inReset = false := by
  simp [completionDue, and_assoc]

/-- What a step that answers a next state does (R71). -/
theorem step_cases (s t : State) (h : step s = .next t) :
    (completionDue s = true ∧ complete s = .next t) ∨
    (completionDue s = false ∧ s.pending = [] ∧ t = tick s) ∨
    (completionDue s = false ∧ ∃ e rest, s.pending = e :: rest ∧
      serveEvent e { tick s with pending := rest } = .next t) := by
  unfold step nextEvent at h
  cases hc : completionDue s with
  | true => rw [hc] at h; exact .inl ⟨rfl, h⟩
  | false =>
    rw [hc] at h
    simp only [Bool.false_eq_true, if_false, serveHost, tick_pending] at h
    cases hp : s.pending with
    | nil =>
      rw [hp] at h
      exact .inr (.inl ⟨rfl, rfl, (Host.Outcome.next.inj h).symm⟩)
    | cons e rest =>
      rw [hp] at h
      exact .inr (.inr ⟨rfl, e, rest, rfl, h⟩)

/-- Completion runs the decoded command, or raises ILLEGAL_COMMAND (R33, R87). -/
theorem complete_cases (s : State) :
    (∃ i, decodeWord s.cmd = .ok i ∧ complete s = exec i s) ∨
      (∃ e, decodeWord s.cmd = .error e ∧ complete s = .next (raiseError .illegalCommand s)) := by
  unfold complete fetchCommand
  cases h : decodeWord s.cmd with
  | ok i => exact .inl ⟨i, rfl, rfl⟩
  | error e => exact .inr ⟨e, rfl, rfl⟩

end Sys2Proof.Machine
end

