-- ==== Sys2Proof/Laws/Memory.lean ====
section
/-! SUPPORT. STRBUF: a read after a write, other bytes unchanged, the canonical form kept by every operation, words of four
bytes (R36, R66). -/

namespace Sys2Proof.Machine

/-! ### One byte -/

theorem Memory.read_of_lt (m : Memory) (lo a : Nat) (h : Memory.wfFrom lo m = true) (ha : a < lo) :
    Memory.read m a = unlistedByte := by
  induction m generalizing lo with
  | nil => rfl
  | cons p m ih =>
    obtain ⟨k, c⟩ := p
    simp only [Memory.wfFrom, Bool.and_eq_true, decide_eq_true_eq] at h
    have : k ≠ a := by omega
    simp only [Memory.read, this, if_false]
    exact ih (k + 1) h.2 (by omega)

/-- A canonical memory is canonical from any lower bound. -/
theorem Memory.wfFrom_mono (m : Memory) (hi lo : Nat) (h : Memory.wfFrom hi m = true) (hle : lo ≤ hi) :
    Memory.wfFrom lo m = true := by
  cases m with
  | nil => rfl
  | cons p m =>
    obtain ⟨k, c⟩ := p
    simp only [Memory.wfFrom, Bool.and_eq_true, decide_eq_true_eq] at h ⊢
    exact ⟨⟨⟨by omega, h.1.1.2⟩, h.1.2⟩, h.2⟩

/-- A write leaves the canonical form; `lo` may be any bound below the written index. -/
theorem Memory.wfFrom_write (m : Memory) (lo a : Nat) (b : Byte) (h : Memory.wfFrom lo m = true) (hlo : lo ≤ a)
    (ha : a < strbufSize) : Memory.wfFrom lo (Memory.write m a b) = true := by
  induction m generalizing lo with
  | nil =>
    unfold Memory.write
    split
    · rfl
    · simp_all [Memory.wfFrom]
  | cons p m ih =>
    obtain ⟨k, c⟩ := p
    have h' := h
    simp only [Memory.wfFrom, Bool.and_eq_true, decide_eq_true_eq] at h'
    obtain ⟨⟨⟨h1, h2⟩, h3⟩, h4⟩ := h'
    unfold Memory.write
    split
    · rename_i hka
      simp only [Memory.wfFrom, Bool.and_eq_true, decide_eq_true_eq]
      exact ⟨⟨⟨h1, h2⟩, h3⟩, ih (k + 1) h4 (by omega)⟩
    · split
      · rename_i hka
        subst hka
        split
        · exact Memory.wfFrom_mono m (k + 1) lo h4 (by omega)
        · rename_i hb
          simp only [Memory.wfFrom, Bool.and_eq_true, decide_eq_true_eq]
          exact ⟨⟨⟨h1, h2⟩, by simpa using hb⟩, h4⟩
      · rename_i hka hne
        split
        · exact h
        · rename_i hb
          simp only [Memory.wfFrom, Bool.and_eq_true, decide_eq_true_eq]
          exact ⟨⟨⟨hlo, ha⟩, by simpa using hb⟩, ⟨⟨by omega, h2⟩, h3⟩, h4⟩

/-- Every write of a byte of STRBUF keeps the canonical form. -/
theorem Memory.wf_write (m : Memory) (a : Nat) (b : Byte) (h : m.wf = true) (ha : a < strbufSize) :
    (Memory.write m a b).wf = true :=
  Memory.wfFrom_write m 0 a b h (Nat.zero_le a) ha

/-- A canonical memory reads, after a write, the written byte at its index and what it read before elsewhere. -/
theorem Memory.read_write (m : Memory) (lo a k : Nat) (b : Byte) (h : Memory.wfFrom lo m = true) :
    Memory.read (Memory.write m a b) k = if k = a then b else Memory.read m k := by
  induction m generalizing lo with
  | nil =>
    unfold Memory.write
    by_cases hk : k = a
    · subst hk
      split <;> simp_all [Memory.read]
    · have : a ≠ k := fun h => hk h.symm
      split <;> simp [Memory.read, this]
  | cons p m ih =>
    obtain ⟨j, c⟩ := p
    simp only [Memory.wfFrom, Bool.and_eq_true, decide_eq_true_eq] at h
    obtain ⟨-, h4⟩ := h
    unfold Memory.write
    split
    · rename_i hja
      simp only [Memory.read]
      rw [ih (j + 1) h4]
      by_cases hjk : j = k
      · have : k ≠ a := by omega
        simp [hjk, this]
      · simp [hjk]
    · split
      · rename_i hja
        subst hja
        by_cases hk : k = j
        · subst hk
          split
          · rename_i hb
            rw [Memory.read_of_lt m (k + 1) k h4 (by omega)]
            simp [hb]
          · simp [Memory.read]
        · have : j ≠ k := fun h => hk h.symm
          split <;> simp [Memory.read, this]
      · rename_i hja hne
        by_cases hk : k = a
        · subst hk
          split
          · rename_i hb
            have : Memory.read ((j, c) :: m) k = unlistedByte := by
              simp only [Memory.read, hne, if_false]
              exact Memory.read_of_lt m (j + 1) k h4 (by omega)
            simp [this, hb]
          · simp [Memory.read]
        · have : a ≠ k := fun h => hk h.symm
          split
          · rfl
          · simp only [Memory.read, this, if_false]

/-! ### A whole text (R186) -/

theorem Memory.wfFrom_ofBytesFrom (k : Nat) (bs : List Byte) (h : k + bs.length ≤ strbufSize) :
    Memory.wfFrom k (Memory.ofBytesFrom k bs) = true := by
  induction bs generalizing k with
  | nil => rfl
  | cons b bs ih =>
    simp only [List.length_cons] at h
    have hrec := ih (k + 1) (by omega)
    unfold Memory.ofBytesFrom
    split
    · exact Memory.wfFrom_mono _ (k + 1) k hrec (by omega)
    · rename_i hb
      simp only [Memory.wfFrom, Bool.and_eq_true, decide_eq_true_eq]
      exact ⟨⟨⟨le_refl _, by omega⟩, by simpa using hb⟩, hrec⟩

/-- STRBUF is canonical after TOSTR. -/
theorem Memory.wf_ofText (t : List Byte) : (Memory.ofText t).wf = true :=
  Memory.wfFrom_ofBytesFrom 0 _ (by simp)

theorem Memory.read_ofBytesFrom (k : Nat) (bs : List Byte) (a : Nat) :
    Memory.read (Memory.ofBytesFrom k bs) a = if a < k then unlistedByte else bs.getD (a - k) unlistedByte := by
  induction bs generalizing k with
  | nil => simp [Memory.ofBytesFrom, Memory.read]
  | cons b bs ih =>
    unfold Memory.ofBytesFrom
    split
    · rename_i hb
      rw [ih]
      by_cases h1 : a < k
      · simp [h1, Nat.lt_succ_of_lt h1]
      · by_cases h2 : a = k
        · subst h2; simp [hb]
        · have h3 : ¬ a < k + 1 := by omega
          obtain ⟨n, rfl⟩ : ∃ n, a = k + 1 + n := ⟨a - (k + 1), by omega⟩
          have e1 : k + 1 + n - (k + 1) = n := by omega
          have e2 : k + 1 + n - k = n + 1 := by omega
          rw [if_neg h3, if_neg h1, e1, e2]
          simp
    · simp only [Memory.read]
      by_cases h2 : k = a
      · subst h2; simp
      · rw [if_neg h2, ih]
        by_cases h1 : a < k
        · simp [h1, Nat.lt_succ_of_lt h1]
        · have h3 : ¬ a < k + 1 := by omega
          obtain ⟨n, rfl⟩ : ∃ n, a = k + 1 + n := ⟨a - (k + 1), by omega⟩
          have e1 : k + 1 + n - (k + 1) = n := by omega
          have e2 : k + 1 + n - k = n + 1 := by omega
          rw [if_neg h3, if_neg h1, e1, e2]
          simp

/-- After TOSTR, byte `k` is the text's character, or 0x00 after the text (R186). -/
theorem Memory.read_ofText (t : List Byte) (k : Nat) (hk : k < 132) :
    (Memory.ofText t).read k = t.getD k 0x00#8 := by
  rw [Memory.ofText, Memory.read_ofBytesFrom]
  simp [unlistedByte, List.getD_eq_getElem?_getD, strbufSize, hk]

/-! ### One bus word (R66) -/

theorem byteOf_append (b0 b1 b2 b3 : Byte) (m : Nat) (hm : m < 4) :
    byteOf (b3 ++ b2 ++ b1 ++ b0 : BitVec (8 + 8 + 8 + 8)) m = [b0, b1, b2, b3].getD m 0x00#8 := by
  apply BitVec.eq_of_getLsbD_eq
  intro i hi
  simp only [byteOf, BitVec.getLsbD_extractLsb', hi, decide_true, Bool.true_and, BitVec.getLsbD_append]
  interval_cases m <;> simp <;> (try split_ifs) <;> first | omega | (congr 1; omega)

/-- The four bytes of a bus word, put back together (R66). -/
theorem append_byteOf (w : Word) : (byteOf w 3 ++ byteOf w 2 ++ byteOf w 1 ++ byteOf w 0 : BitVec (8 + 8 + 8 + 8)) = w := by
  apply BitVec.eq_of_getLsbD_eq
  intro i hi
  simp only [byteOf, BitVec.getLsbD_extractLsb', BitVec.getLsbD_append]
  interval_cases i <;> simp

/-- A canonical STRBUF reads back the bus word written at `k`, and any other bus word as before (R36, R66). -/
theorem Memory.readWord_writeWord (m : Memory) (k j : Nat) (w : Word) (h : m.wf = true) (hk : 4 * k + 3 < strbufSize) :
    (m.writeWord k w).readWord j = if j = k then w else m.readWord j := by
  have h0 := Memory.wf_write m (4 * k) (byteOf w 0) h (by omega)
  have h1 := Memory.wf_write _ (4 * k + 1) (byteOf w 1) h0 (by omega)
  have h2 := Memory.wf_write _ (4 * k + 2) (byteOf w 2) h1 (by omega)
  have hread : ∀ a, (m.writeWord k w).read a = if a = 4 * k + 3 then byteOf w 3 else if a = 4 * k + 2 then byteOf w 2
      else if a = 4 * k + 1 then byteOf w 1 else if a = 4 * k then byteOf w 0 else m.read a := by
    intro a
    unfold Memory.writeWord
    rw [Memory.read_write _ 0 _ _ _ h2, Memory.read_write _ 0 _ _ _ h1, Memory.read_write _ 0 _ _ _ h0,
      Memory.read_write _ 0 _ _ _ h]
  unfold Memory.readWord
  simp only [hread]
  by_cases hj : j = k
  · subst hj
    simp only [if_true]
    rw [if_neg (by omega), if_neg (by omega), if_neg (by omega), if_neg (by omega), if_neg (by omega), if_neg (by omega)]
    exact append_byteOf w
  · have hother : ∀ a, a / 4 = j → (m.writeWord k w).read a = m.read a := by
      intro a ha
      rw [hread, if_neg (by omega), if_neg (by omega), if_neg (by omega), if_neg (by omega)]
    simp only [← hread]
    rw [if_neg hj, hother _ (by omega), hother _ (by omega), hother _ (by omega), hother _ (by omega)]

/-- Writing a bus word keeps the canonical form. -/
theorem Memory.wf_writeWord (m : Memory) (k : Nat) (w : Word) (h : m.wf = true) (hk : 4 * k + 3 < strbufSize) :
    (m.writeWord k w).wf = true := by
  unfold Memory.writeWord
  exact Memory.wf_write _ _ _ (Memory.wf_write _ _ _ (Memory.wf_write _ _ _ (Memory.wf_write _ _ _ h (by omega)) (by omega))
    (by omega)) (by omega)

end Sys2Proof.Machine
end

