-- ==== Sys2Proof/Laws/Complete.lean ====
section
/-! SUPPORT. What a completion does, once for each shared way of completing: one register, a rule that may end in an error, a
comparison, a pair, a text (R33, R222). -/

namespace Sys2Proof.Machine

theorem retire_completed (s : State) : CompletedWith 0#4 (retire s) := ⟨rfl, rfl, rfl⟩

/-- Completion with one register result writes that register and the status, nothing else. -/
theorem completeReg_spec (rd : Reg) (v : Value) (s : State) :
    ∃ t, completeReg rd v s = .next t ∧ WritesReg rd v s t :=
  ⟨_, rfl, by simp [readReg],
    fun r hr => by simpa using readReg_writeReg_ne rd r v s (by simpa using hr), by simp, ⟨by simp, by simp⟩,
    retire_completed _, ⟨by simp, by simp, by simp, by simp, by simp, by simp⟩⟩

/-- An error writes the status and nothing else (R222). -/
theorem raiseError_spec (e : ErrorCode) (s : State) : ErrorOnly e.code s (raiseError e s) :=
  ⟨fun r _ => by simp, by simp, ⟨by simp, by simp⟩, ⟨rfl, rfl, rfl⟩, ⟨rfl, rfl, rfl, rfl, rfl, rfl⟩⟩

/-- A rule that may end in an error: its value to x[rd], or the error alone. -/
theorem completeRule_spec (rd : Reg) (r : Except ErrorCode Value) (s : State) :
    (∃ v, r = .ok v ∧ ∃ t, completeRule rd r s = .next t ∧ WritesReg rd v s t) ∨
      (∃ e, r = .error e ∧ ∃ t, completeRule rd r s = .next t ∧ ErrorOnly e.code s t) := by
  cases r with
  | ok v => exact .inl ⟨v, rfl, completeReg_spec rd v s⟩
  | error e => exact .inr ⟨e, rfl, _, rfl, raiseError_spec e s⟩

/-- A comparison writes x[rd] and CMPRES (R131). -/
theorem completeCompare_spec (rd : Reg) (o : Ordering) (s : State) :
    ∃ t, completeCompare rd o s = .next t ∧ t.cmpres = cmpresOf o ∧
      WritesReg rd (compareValue o) (setCmpres (cmpresOf o) s) t := by
  obtain ⟨t, h1, h2⟩ := completeReg_spec rd (compareValue o) (setCmpres (cmpresOf o) s)
  exact ⟨t, h1, by rw [h2.cmpres]; rfl, h2⟩

/-- DIVREM: the quotient to x[rd], the remainder to x[rd2] unless they are one register, which keeps the quotient; or the
error alone (R155). -/
theorem completePair_spec (rd rd2 : Reg) (r : Except ErrorCode (Value × Value)) (s : State) :
    (∃ q m, r = .ok (q, m) ∧ ∃ t, completePair rd rd2 r s = .next t ∧ WritesReg rd q (writeReg rd2 m s) t) ∨
      (∃ e, r = .error e ∧ ∃ t, completePair rd rd2 r s = .next t ∧ ErrorOnly e.code s t) := by
  cases r with
  | ok qr => exact .inl ⟨qr.1, qr.2, rfl, completeReg_spec rd qr.1 (writeReg rd2 qr.2 s)⟩
  | error e => exact .inr ⟨e, rfl, _, rfl, raiseError_spec e s⟩

/-- A text of at most 132 characters: STRBUF and STRLEN; or the error alone (R186). -/
theorem completeText_spec (r : Except ErrorCode (List Byte)) (s : State) :
    (∃ bs, r = .ok bs ∧ ∃ t, completeText r s = .next t ∧ (bs.length ≤ strbufSize → WritesText bs s t)) ∨
      (∃ e, r = .error e ∧ ∃ t, completeText r s = .next t ∧ ErrorOnly e.code s t) := by
  cases r with
  | ok bs =>
    refine .inl ⟨bs, rfl, _, rfl, fun h => ⟨?_, fun k hk => ?_, fun r _ => rfl, rfl, retire_completed _,
      ⟨rfl, rfl, rfl, rfl, rfl, rfl⟩⟩⟩
    · have h' : bs.length ≤ 132 := h
      simp only [retire_strlen, BitVec.toNat_ofNat]
      omega
    · simpa using Memory.read_ofText bs k hk
  | error e => exact .inr ⟨e, rfl, _, rfl, raiseError_spec e s⟩

end Sys2Proof.Machine
end

