-- ==== Sys2Proof/Laws/Decode.lean ====
section
/-! SUPPORT. The fields of a packed command word (R80), and what the decoder answers (R87). -/

namespace Sys2Proof

theorem Reg.number_lt (r : Reg) : r.number < 8 := by cases r <;> decide

@[simp] theorem Reg.ofBits_number (r : Reg) : Reg.ofBits (BitVec.ofNat 3 r.number) = r := by cases r <;> rfl

@[simp] theorem Reg.number_ofBits (b : BitVec 3) : (Reg.ofBits b).number = b.toNat := by
  revert b; decide

/-- A packed word as a number: the fields do not overlap (R80). -/
theorem packFields_toNat (op : Nat) (s : Bool) (rd rs1 rs2 rd2 : Reg) (h : op < 64) :
    (packFields op s rd rs1 rs2 rd2).toNat = op + s.toNat * 2 ^ 6 + rd.number * 2 ^ 8 + rs1.number * 2 ^ 11
      + rs2.number * 2 ^ 14 + rd2.number * 2 ^ 17 := by
  have h1 := rd.number_lt
  have h2 := rs1.number_lt
  have h3 := rs2.number_lt
  have h4 := rd2.number_lt
  have h5 := s.toNat_lt
  rw [packFields, BitVec.toNat_ofNat]
  omega

/-- A bit field of a word, as a number. -/
theorem field_toNat (w : Word) (lo n : Nat) : (w.extractLsb' lo n).toNat = w.toNat / 2 ^ lo % 2 ^ n := by
  rw [BitVec.extractLsb'_toNat, Nat.shiftRight_eq_div_pow]

section pack

variable (op : Nat) (s : Bool) (rd rs1 rs2 rd2 : Reg) (h : op < 64)
include h

theorem pack_op : fieldOP (packFields op s rd rs1 rs2 rd2) = BitVec.ofNat 6 op := by
  have h5 := s.toNat_lt
  apply BitVec.eq_of_toNat_eq
  rw [fieldOP, field_toNat, packFields_toNat _ _ _ _ _ _ h, BitVec.toNat_ofNat]
  omega

theorem pack_s : fieldS (packFields op s rd rs1 rs2 rd2) = s := by
  have : (packFields op s rd rs1 rs2 rd2).extractLsb' 6 1 = BitVec.ofNat 1 s.toNat := by
    apply BitVec.eq_of_toNat_eq
    rw [field_toNat, packFields_toNat _ _ _ _ _ _ h, BitVec.toNat_ofNat]
    omega
  rw [fieldS, this]
  cases s <;> rfl

theorem pack_res0 : (packFields op s rd rs1 rs2 rd2).extractLsb' 7 1 = 0#1 := by
  have h5 := s.toNat_lt
  apply BitVec.eq_of_toNat_eq
  rw [field_toNat, packFields_toNat _ _ _ _ _ _ h, BitVec.toNat_ofNat]
  omega

theorem pack_res1 : (packFields op s rd rs1 rs2 rd2).extractLsb' 20 12 = 0#12 := by
  have h1 := rd.number_lt
  have h2 := rs1.number_lt
  have h3 := rs2.number_lt
  have h4 := rd2.number_lt
  have h5 := s.toNat_lt
  apply BitVec.eq_of_toNat_eq
  rw [field_toNat, packFields_toNat _ _ _ _ _ _ h, BitVec.toNat_ofNat]
  omega

theorem pack_rd : fieldRD (packFields op s rd rs1 rs2 rd2) = rd := by
  have h1 := rd.number_lt
  have h5 := s.toNat_lt
  have : (packFields op s rd rs1 rs2 rd2).extractLsb' 8 3 = BitVec.ofNat 3 rd.number := by
    apply BitVec.eq_of_toNat_eq
    rw [field_toNat, packFields_toNat _ _ _ _ _ _ h, BitVec.toNat_ofNat]
    omega
  rw [fieldRD, this, Reg.ofBits_number]

theorem pack_rs1 : fieldRS1 (packFields op s rd rs1 rs2 rd2) = rs1 := by
  have h1 := rd.number_lt
  have h2 := rs1.number_lt
  have h5 := s.toNat_lt
  have : (packFields op s rd rs1 rs2 rd2).extractLsb' 11 3 = BitVec.ofNat 3 rs1.number := by
    apply BitVec.eq_of_toNat_eq
    rw [field_toNat, packFields_toNat _ _ _ _ _ _ h, BitVec.toNat_ofNat]
    omega
  rw [fieldRS1, this, Reg.ofBits_number]

theorem pack_rs2 : fieldRS2 (packFields op s rd rs1 rs2 rd2) = rs2 := by
  have h1 := rd.number_lt
  have h2 := rs1.number_lt
  have h3 := rs2.number_lt
  have h5 := s.toNat_lt
  have : (packFields op s rd rs1 rs2 rd2).extractLsb' 14 3 = BitVec.ofNat 3 rs2.number := by
    apply BitVec.eq_of_toNat_eq
    rw [field_toNat, packFields_toNat _ _ _ _ _ _ h, BitVec.toNat_ofNat]
    omega
  rw [fieldRS2, this, Reg.ofBits_number]

theorem pack_rd2 : fieldRD2 (packFields op s rd rs1 rs2 rd2) = rd2 := by
  have h1 := rd.number_lt
  have h2 := rs1.number_lt
  have h3 := rs2.number_lt
  have h4 := rd2.number_lt
  have h5 := s.toNat_lt
  have : (packFields op s rd rs1 rs2 rd2).extractLsb' 17 3 = BitVec.ofNat 3 rd2.number := by
    apply BitVec.eq_of_toNat_eq
    rw [field_toNat, packFields_toNat _ _ _ _ _ _ h, BitVec.toNat_ofNat]
    omega
  rw [fieldRD2, this, Reg.ofBits_number]

/-- Decoding a packed word is the table row of its fields. -/
theorem decode_pack : decodeWord (packFields op s rd rs1 rs2 rd2) =
    match opcodeRow op s rd rs1 rs2 rd2 with
    | some i => .ok i
    | none => .error .reservedOpcode := by
  have hop : (BitVec.ofNat 6 op).toNat = op := by rw [BitVec.toNat_ofNat]; omega
  cases ho : opcodeRow op s rd rs1 rs2 rd2 <;>
  simp [decodeWord, pack_res0 _ _ _ _ _ _ h, pack_res1 _ _ _ _ _ _ h, pack_op _ _ _ _ _ _ h, pack_s _ _ _ _ _ _ h,
    pack_rd _ _ _ _ _ _ h, pack_rs1 _ _ _ _ _ _ h, pack_rs2 _ _ _ _ _ _ h, pack_rd2 _ _ _ _ _ _ h, hop, ho]

end pack

/-- Where the decoder answers an instruction, the reserved bits are 0 and the instruction is the table row of the word's
fields (R87). -/
theorem decodeWord_ok (w : Word) (i : Instr) (h : decodeWord w = .ok i) :
    w.extractLsb' 7 1 = 0#1 ∧ w.extractLsb' 20 12 = 0#12 ∧
      opcodeRow (fieldOP w).toNat (fieldS w) (fieldRD w) (fieldRS1 w) (fieldRS2 w) (fieldRD2 w) = some i := by
  unfold decodeWord at h
  split at h
  · cases h
  · rename_i h7
    split at h
    · cases h
    · rename_i h20
      split at h
      · rename_i j hj
        cases h
        exact ⟨not_not.mp h7, not_not.mp h20, hj⟩
      · cases h

end Sys2Proof
end

