-- ==== Sys2Proof/Laws/PerInstr.lean ====
section
/-! SUPPORT. The family LegalEncoding: the encoder's word of an instruction is legal (R88, R93). -/

namespace Sys2Proof

/-- A packed word with a listed operation is legal (R88). -/
theorem legalWord_pack (op : Nat) (s : Bool) (rd rs1 rs2 rd2 : Reg) (h : op < 64) (hlo : 1 ≤ op) (hhi : op ≤ 0x17) :
    legalWord (packFields op s rd rs1 rs2 rd2) = true := by
  have h1 := pack_op op s rd rs1 rs2 rd2 h
  have h2 := pack_res0 op s rd rs1 rs2 rd2 h
  have h3 := pack_res1 op s rd rs1 rs2 rd2 h
  unfold fieldOP at h1
  simp only [legalWord, opListed, res0Clear, res1Clear, h1, h2, h3, BitVec.toNat_ofNat, beq_self_eq_true, Bool.and_true,
    Bool.and_eq_true, decide_eq_true_eq]
  omega

def Laws.LegalEncoding.Statement (i : Instr) : Prop := i.wellFormed = true ∧ legalWord (encode i) = true

theorem Laws.LegalEncoding.add (rd rs1 rs2 : Reg) : Laws.LegalEncoding.Statement (.add rd rs1 rs2) :=
  ⟨rfl, legalWord_pack _ _ _ _ _ _ (by decide) (by decide) (by decide)⟩

theorem Laws.LegalEncoding.sub (rd rs1 rs2 : Reg) : Laws.LegalEncoding.Statement (.sub rd rs1 rs2) :=
  ⟨rfl, legalWord_pack _ _ _ _ _ _ (by decide) (by decide) (by decide)⟩

theorem Laws.LegalEncoding.neg (rd rs1 : Reg) : Laws.LegalEncoding.Statement (.neg rd rs1) :=
  ⟨rfl, legalWord_pack _ _ _ _ _ _ (by decide) (by decide) (by decide)⟩

theorem Laws.LegalEncoding.not (rd rs1 : Reg) : Laws.LegalEncoding.Statement (.not rd rs1) :=
  ⟨rfl, legalWord_pack _ _ _ _ _ _ (by decide) (by decide) (by decide)⟩

theorem Laws.LegalEncoding.and (rd rs1 rs2 : Reg) : Laws.LegalEncoding.Statement (.and rd rs1 rs2) :=
  ⟨rfl, legalWord_pack _ _ _ _ _ _ (by decide) (by decide) (by decide)⟩

theorem Laws.LegalEncoding.or (rd rs1 rs2 : Reg) : Laws.LegalEncoding.Statement (.or rd rs1 rs2) :=
  ⟨rfl, legalWord_pack _ _ _ _ _ _ (by decide) (by decide) (by decide)⟩

theorem Laws.LegalEncoding.xor (rd rs1 rs2 : Reg) : Laws.LegalEncoding.Statement (.xor rd rs1 rs2) :=
  ⟨rfl, legalWord_pack _ _ _ _ _ _ (by decide) (by decide) (by decide)⟩

theorem Laws.LegalEncoding.sll (rd rs1 rs2 : Reg) : Laws.LegalEncoding.Statement (.sll rd rs1 rs2) :=
  ⟨rfl, legalWord_pack _ _ _ _ _ _ (by decide) (by decide) (by decide)⟩

theorem Laws.LegalEncoding.srl (rd rs1 rs2 : Reg) : Laws.LegalEncoding.Statement (.srl rd rs1 rs2) :=
  ⟨rfl, legalWord_pack _ _ _ _ _ _ (by decide) (by decide) (by decide)⟩

theorem Laws.LegalEncoding.cmpU (rd rs1 rs2 : Reg) : Laws.LegalEncoding.Statement (.cmpU rd rs1 rs2) :=
  ⟨rfl, legalWord_pack _ _ _ _ _ _ (by decide) (by decide) (by decide)⟩

theorem Laws.LegalEncoding.cmpS (rd rs1 rs2 : Reg) : Laws.LegalEncoding.Statement (.cmpS rd rs1 rs2) :=
  ⟨rfl, legalWord_pack _ _ _ _ _ _ (by decide) (by decide) (by decide)⟩

theorem Laws.LegalEncoding.mul (rd rs1 rs2 : Reg) : Laws.LegalEncoding.Statement (.mul rd rs1 rs2) :=
  ⟨rfl, legalWord_pack _ _ _ _ _ _ (by decide) (by decide) (by decide)⟩

theorem Laws.LegalEncoding.divU (rd rs1 rs2 : Reg) : Laws.LegalEncoding.Statement (.divU rd rs1 rs2) :=
  ⟨rfl, legalWord_pack _ _ _ _ _ _ (by decide) (by decide) (by decide)⟩

theorem Laws.LegalEncoding.divS (rd rs1 rs2 : Reg) : Laws.LegalEncoding.Statement (.divS rd rs1 rs2) :=
  ⟨rfl, legalWord_pack _ _ _ _ _ _ (by decide) (by decide) (by decide)⟩

theorem Laws.LegalEncoding.remU (rd rs1 rs2 : Reg) : Laws.LegalEncoding.Statement (.remU rd rs1 rs2) :=
  ⟨rfl, legalWord_pack _ _ _ _ _ _ (by decide) (by decide) (by decide)⟩

theorem Laws.LegalEncoding.remS (rd rs1 rs2 : Reg) : Laws.LegalEncoding.Statement (.remS rd rs1 rs2) :=
  ⟨rfl, legalWord_pack _ _ _ _ _ _ (by decide) (by decide) (by decide)⟩

theorem Laws.LegalEncoding.divremU (rd rd2 rs1 rs2 : Reg) : Laws.LegalEncoding.Statement (.divremU rd rd2 rs1 rs2) :=
  ⟨rfl, legalWord_pack _ _ _ _ _ _ (by decide) (by decide) (by decide)⟩

theorem Laws.LegalEncoding.divremS (rd rd2 rs1 rs2 : Reg) : Laws.LegalEncoding.Statement (.divremS rd rd2 rs1 rs2) :=
  ⟨rfl, legalWord_pack _ _ _ _ _ _ (by decide) (by decide) (by decide)⟩

theorem Laws.LegalEncoding.pow (rd rs1 rs2 : Reg) : Laws.LegalEncoding.Statement (.pow rd rs1 rs2) :=
  ⟨rfl, legalWord_pack _ _ _ _ _ _ (by decide) (by decide) (by decide)⟩

theorem Laws.LegalEncoding.rootU (rd rs1 rs2 : Reg) : Laws.LegalEncoding.Statement (.rootU rd rs1 rs2) :=
  ⟨rfl, legalWord_pack _ _ _ _ _ _ (by decide) (by decide) (by decide)⟩

theorem Laws.LegalEncoding.rootS (rd rs1 rs2 : Reg) : Laws.LegalEncoding.Statement (.rootS rd rs1 rs2) :=
  ⟨rfl, legalWord_pack _ _ _ _ _ _ (by decide) (by decide) (by decide)⟩

theorem Laws.LegalEncoding.sqrtU (rd rs1 : Reg) : Laws.LegalEncoding.Statement (.sqrtU rd rs1) :=
  ⟨rfl, legalWord_pack _ _ _ _ _ _ (by decide) (by decide) (by decide)⟩

theorem Laws.LegalEncoding.sqrtS (rd rs1 : Reg) : Laws.LegalEncoding.Statement (.sqrtS rd rs1) :=
  ⟨rfl, legalWord_pack _ _ _ _ _ _ (by decide) (by decide) (by decide)⟩

theorem Laws.LegalEncoding.digitsU (rd rs1 rs2 : Reg) : Laws.LegalEncoding.Statement (.digitsU rd rs1 rs2) :=
  ⟨rfl, legalWord_pack _ _ _ _ _ _ (by decide) (by decide) (by decide)⟩

theorem Laws.LegalEncoding.digitsS (rd rs1 rs2 : Reg) : Laws.LegalEncoding.Statement (.digitsS rd rs1 rs2) :=
  ⟨rfl, legalWord_pack _ _ _ _ _ _ (by decide) (by decide) (by decide)⟩

theorem Laws.LegalEncoding.tostrU (rs1 rs2 : Reg) : Laws.LegalEncoding.Statement (.tostrU rs1 rs2) :=
  ⟨rfl, legalWord_pack _ _ _ _ _ _ (by decide) (by decide) (by decide)⟩

theorem Laws.LegalEncoding.tostrS (rs1 rs2 : Reg) : Laws.LegalEncoding.Statement (.tostrS rs1 rs2) :=
  ⟨rfl, legalWord_pack _ _ _ _ _ _ (by decide) (by decide) (by decide)⟩

theorem Laws.LegalEncoding.parse (rd rs2 : Reg) : Laws.LegalEncoding.Statement (.parse rd rs2) :=
  ⟨rfl, legalWord_pack _ _ _ _ _ _ (by decide) (by decide) (by decide)⟩

theorem Laws.LegalEncoding.ext64U (rd rs1 : Reg) : Laws.LegalEncoding.Statement (.ext64U rd rs1) :=
  ⟨rfl, legalWord_pack _ _ _ _ _ _ (by decide) (by decide) (by decide)⟩

theorem Laws.LegalEncoding.ext64S (rd rs1 : Reg) : Laws.LegalEncoding.Statement (.ext64S rd rs1) :=
  ⟨rfl, legalWord_pack _ _ _ _ _ _ (by decide) (by decide) (by decide)⟩

theorem Laws.LegalEncoding.cminU (rd : Reg) : Laws.LegalEncoding.Statement (.cminU rd) :=
  ⟨rfl, legalWord_pack _ _ _ _ _ _ (by decide) (by decide) (by decide)⟩

theorem Laws.LegalEncoding.cminS (rd : Reg) : Laws.LegalEncoding.Statement (.cminS rd) :=
  ⟨rfl, legalWord_pack _ _ _ _ _ _ (by decide) (by decide) (by decide)⟩

theorem Laws.LegalEncoding.cmaxU (rd : Reg) : Laws.LegalEncoding.Statement (.cmaxU rd) :=
  ⟨rfl, legalWord_pack _ _ _ _ _ _ (by decide) (by decide) (by decide)⟩

theorem Laws.LegalEncoding.cmaxS (rd : Reg) : Laws.LegalEncoding.Statement (.cmaxS rd) :=
  ⟨rfl, legalWord_pack _ _ _ _ _ _ (by decide) (by decide) (by decide)⟩

end Sys2Proof
end

