-- ==== Sys2Proof/Laws/Words.lean ====
section
/-! SUPPORT. Words of a value (R10, R11, R64), the adder and negation (R100, R104), the comparator (R130). -/

namespace Sys2Proof.Machine

theorem word_toNat (v : Value) (j : Nat) : (word v j).toNat = v.toNat / 2 ^ (32 * j) % 2 ^ 32 := by
  simp [word, BitVec.extractLsb'_toNat, Nat.shiftRight_eq_div_pow]

/-- The words of a value stand for its unsigned number (R11). -/
theorem wordsValue_wordsOf (v : Value) : wordsValue (wordsOf v) = v.toNat := by
  have := v.isLt
  simp only [wordsOf, wordsValue, word_toNat]
  omega

theorem wordsValue_lt (ws : List Word) : wordsValue ws < 2 ^ (32 * ws.length) := by
  induction ws with
  | nil => simp [wordsValue]
  | cons w ws ih =>
    have hw := w.isLt
    have hp : (2 : Nat) ^ (32 * (w :: ws).length) = 2 ^ 32 * 2 ^ (32 * ws.length) := by
      rw [← pow_add]; congr 1; simp [Nat.mul_add, Nat.add_comm]
    rw [hp]
    simp only [wordsValue]
    nlinarith

@[simp] theorem length_wordsOf (v : Value) : (wordsOf v).length = 4 := rfl

@[simp] theorem ofWords_wordsOf (v : Value) : ofWords (wordsOf v) = v := by
  simp [ofWords, wordsValue_wordsOf]

theorem toNat_ofWords (ws : List Word) : (ofWords ws).toNat = wordsValue ws % 2 ^ 128 := by
  simp [ofWords]

/-- Four words read back as they were put together (R64). -/
theorem word_ofWords (w0 w1 w2 w3 : Word) (j : Nat) (h : j < 4) :
    word (ofWords [w0, w1, w2, w3]) j = [w0, w1, w2, w3].getD j 0 := by
  apply BitVec.eq_of_toNat_eq
  have h0 := w0.isLt
  have h1 := w1.isLt
  have h2 := w2.isLt
  have h3 := w3.isLt
  rw [word_toNat, toNat_ofWords]
  simp only [wordsValue]
  interval_cases j <;> simp <;> omega

/-! ### Adder and negation -/

theorem wordsValue_addWords (ps qs : List Word) (c : Nat) (hc : c ≤ 1) (hl : ps.length = qs.length) :
    wordsValue (addWords ps qs c) = (wordsValue ps + wordsValue qs + c) % 2 ^ (32 * ps.length) := by
  induction ps generalizing qs c with
  | nil =>
    cases qs with
    | nil => simp [addWords, wordsValue, Nat.mod_one]
    | cons => simp at hl
  | cons p ps ih =>
    cases qs with
    | nil => simp at hl
    | cons q qs =>
      have hp := p.isLt
      have hq := q.isLt
      have hl' : ps.length = qs.length := by simpa using hl
      have hpow : (2 : Nat) ^ (32 * (p :: ps).length) = 2 ^ 32 * 2 ^ (32 * ps.length) := by
        rw [← pow_add]; congr 1; simp [Nat.mul_add, Nat.add_comm]
      have hcarry : (if p.toNat + q.toNat + c ≥ 2 ^ 32 then 1 else 0) = (p.toNat + q.toNat + c) / 2 ^ 32 := by
        split <;> omega
      simp only [addWords, wordsValue, BitVec.toNat_ofNat]
      have hlow : (p.toNat + 2 ^ 32 * wordsValue ps + (q.toNat + 2 ^ 32 * wordsValue qs) + c) % 2 ^ 32
          = (p.toNat + q.toNat + c) % 2 ^ 32 := by omega
      have hhigh : (p.toNat + 2 ^ 32 * wordsValue ps + (q.toNat + 2 ^ 32 * wordsValue qs) + c) / 2 ^ 32
          = wordsValue ps + wordsValue qs + (p.toNat + q.toNat + c) / 2 ^ 32 := by omega
      rw [hcarry, ih _ _ (by omega) hl', hpow, Nat.mod_mul, hlow, hhigh]

/-- The adder adds modulo 2^128 (R100). -/
theorem add128_eq (p q : Value) (c : Nat) (hc : c ≤ 1) : add128 p q c = p + q + BitVec.ofNat 128 c := by
  apply BitVec.eq_of_toNat_eq
  rw [add128, toNat_ofWords, wordsValue_addWords _ _ _ hc (by simp)]
  simp [wordsValue_wordsOf]

/-- Negation is two's complement (R104). -/
theorem neg128_eq (p : Value) : neg128 p = -p := by
  rw [neg128, add128_eq _ _ _ (by omega)]
  simp [BitVec.neg_eq_not_add]

/-- The subtractor subtracts modulo 2^128 (R103). -/
theorem sub128_eq (a b : Value) : sub128 a b = a - b := by
  rw [sub128, add128_eq _ _ _ (by omega), neg128_eq]
  simp [BitVec.sub_eq_add_neg]

theorem isNeg_eq_msb (v : Value) : isNeg v = v.msb := by
  simp [isNeg, BitVec.msb_eq_getLsbD_last]

theorem isNeg_iff (v : Value) : isNeg v = true ↔ v.toInt < 0 := by
  rw [isNeg_eq_msb, BitVec.msb_eq_toInt]; simp

/-- The magnitude is `|s(v)|`, for min too (R106, R181). -/
theorem magnitude_toNat (v : Value) : (magnitude v).toNat = v.toInt.natAbs := by
  have hv := v.isLt
  unfold magnitude
  split
  · rename_i h
    rw [isNeg_iff] at h
    rw [neg128_eq, BitVec.toNat_neg]
    rw [BitVec.toInt_eq_toNat_cond] at h ⊢
    split at h <;> omega
  · rename_i h
    rw [isNeg_iff] at h
    rw [BitVec.toInt_eq_toNat_cond] at h ⊢
    split at h <;> omega

/-! ### Comparator -/

theorem compareWords_append (ps qs : List Word) (p q : Word) (hl : ps.length = qs.length) :
    compareWords (ps ++ [p]) (qs ++ [q]) = (compareWords ps qs).then (compareWords [p] [q]) := by
  induction ps generalizing qs with
  | nil => cases qs with
    | nil => simp [compareWords]
    | cons => simp at hl
  | cons a ps ih => cases qs with
    | nil => simp at hl
    | cons b qs =>
      simp only [List.cons_append, compareWords]
      rw [ih _ (by simpa using hl)]
      split
      · rfl
      · split <;> rfl

theorem compareWords_reverse (ps qs : List Word) (hl : ps.length = qs.length) :
    compareWords ps.reverse qs.reverse = compare (wordsValue ps) (wordsValue qs) := by
  induction ps generalizing qs with
  | nil => cases qs with
    | nil => simp [compareWords, wordsValue]
    | cons => simp at hl
  | cons a ps ih => cases qs with
    | nil => simp at hl
    | cons b qs =>
      have hl' : ps.length = qs.length := by simpa using hl
      have ha := a.isLt
      have hb := b.isLt
      rw [List.reverse_cons, List.reverse_cons, compareWords_append _ _ _ _ (by simpa using hl'), ih _ hl']
      simp only [wordsValue, compareWords]
      rcases Nat.lt_trichotomy (wordsValue ps) (wordsValue qs) with h | h | h
      · rw [Nat.compare_eq_lt.mpr h, Nat.compare_eq_lt.mpr (by omega)]; rfl
      · rw [Nat.compare_eq_eq.mpr h, h]
        rcases Nat.lt_trichotomy a.toNat b.toNat with h' | h' | h'
        · rw [Nat.compare_eq_lt.mpr (by omega)]; simp [h', Ordering.then]
        · rw [Nat.compare_eq_eq.mpr (by omega)]; simp [h', Ordering.then]
        · rw [Nat.compare_eq_gt.mpr (by omega)]; simp [h', Ordering.then, Nat.lt_asymm h']
      · rw [Nat.compare_eq_gt.mpr h, Nat.compare_eq_gt.mpr (by omega)]; rfl

/-- UCMP orders by `u` (R130). -/
theorem ucmp_eq (p q : Value) : ucmp p q = compare p.toNat q.toNat := by
  rw [ucmp, compareWords_reverse _ _ (by simp), wordsValue_wordsOf, wordsValue_wordsOf]

/-- SCMP orders by `s` (R130). -/
theorem scmp_eq (p q : Value) : scmp p q = compare p.toInt q.toInt := by
  have hp := p.isLt
  have hq := q.isLt
  have key : ∀ a b : Int, compare a b = if a < b then .lt else if a = b then .eq else .gt := fun a b => rfl
  have keyN : ∀ a b : Nat, compare a b = if a < b then .lt else if a = b then .eq else .gt := fun a b => rfl
  rw [scmp, ucmp_eq, key, keyN]
  have h1 := isNeg_iff p
  have h2 := isNeg_iff q
  rw [BitVec.toInt_eq_toNat_cond] at h1 h2 ⊢
  rw [BitVec.toInt_eq_toNat_cond]
  cases hn : isNeg p <;> cases hm : isNeg q <;> simp only [hn, hm, true_iff, Bool.false_eq_true, false_iff] at h1 h2 <;>
    simp only [Bool.not_false, Bool.not_true, Bool.and_true, Bool.and_false, Bool.false_eq_true, if_true, if_false] <;>
    split_ifs at h1 h2 ⊢ <;> first | rfl | (exfalso; omega)

end Sys2Proof.Machine
end

