-- ==== Sys2Proof/Laws/Units.lean ====
section
/-! SUPPORT. What each arithmetic unit computes: shifter (R121, R122), multiplier (R140), power (R144), division engine (R151,
R156), root finder (R170). -/

namespace Sys2Proof.Machine

/-! ### Shifter -/

/-- The left shifter multiplies by `2^c` modulo 2^128, for every count (R121, R124). -/
theorem shiftLeft_eq (a : Value) (c : Nat) : shiftLeft a c = BitVec.ofNat 128 (a.toNat * 2 ^ c) := by
  unfold shiftLeft
  split
  · rename_i h
    obtain ⟨k, rfl⟩ := Nat.exists_eq_add_of_le h
    apply BitVec.eq_of_toNat_eq
    rw [BitVec.toNat_ofNat, pow_add, Nat.mul_left_comm, Nat.mul_mod_right]
    rfl
  · rfl

/-- The right shifter divides by `2^c`, rounding down, for every count (R122, R124). -/
theorem shiftRight_eq (a : Value) (c : Nat) : shiftRight a c = BitVec.ofNat 128 (a.toNat / 2 ^ c) := by
  unfold shiftRight
  split
  · rename_i h
    have : a.toNat < 2 ^ c := lt_of_lt_of_le a.isLt (Nat.pow_le_pow_right (by omega) h)
    rw [Nat.div_eq_of_lt this]
    rfl
  · rfl

/-! ### Multiplier -/

theorem length_mulRow (p : Nat) (qs rs : List Word) (c : Nat) (hl : rs.length ≤ qs.length) :
    (mulRow p qs rs c).length = rs.length := by
  induction rs generalizing qs c with
  | nil => cases qs <;> simp [mulRow]
  | cons r rs ih => cases qs with
    | nil => simp at hl
    | cons q qs => simp [mulRow, ih _ _ (by simpa using hl)]

/-- One row adds `p` times the words of `q`, modulo what the row holds (R140). -/
theorem wordsValue_mulRow (p : Nat) (qs rs : List Word) (c : Nat) (hl : rs.length ≤ qs.length) :
    wordsValue (mulRow p qs rs c) = (p * wordsValue qs + wordsValue rs + c) % 2 ^ (32 * rs.length) := by
  induction rs generalizing qs c with
  | nil => cases qs <;> simp [mulRow, wordsValue, Nat.mod_one]
  | cons r rs ih => cases qs with
    | nil => simp at hl
    | cons q qs =>
      have hpow : (2 : Nat) ^ (32 * (r :: rs).length) = 2 ^ 32 * 2 ^ (32 * rs.length) := by
        rw [← pow_add]; congr 1; simp [Nat.mul_add, Nat.add_comm]
      have hsum : p * (q.toNat + 2 ^ 32 * wordsValue qs) + (r.toNat + 2 ^ 32 * wordsValue rs) + c
          = (p * q.toNat + r.toNat + c) + 2 ^ 32 * (p * wordsValue qs + wordsValue rs) := by ring
      simp only [mulRow, wordsValue, BitVec.toNat_ofNat]
      rw [ih _ _ (by simpa using hl), hpow, Nat.mod_mul, hsum, Nat.add_mul_mod_self_left,
        Nat.add_mul_div_left _ _ (by positivity), Nat.add_comm (p * wordsValue qs + wordsValue rs)]

/-- The schoolbook rows give the product added to what was there, modulo the words held (R140). -/
theorem wordsValue_mulWords (ps qs rs : List Word) (hp : ps.length = rs.length) (hl : rs.length ≤ qs.length) :
    wordsValue (mulWords ps qs rs) = (wordsValue ps * wordsValue qs + wordsValue rs) % 2 ^ (32 * rs.length) := by
  induction ps generalizing rs with
  | nil => cases rs with
    | nil => simp [mulWords, wordsValue, Nat.mod_one]
    | cons => simp at hp
  | cons p ps ih =>
    have hrow := wordsValue_mulRow p.toNat qs rs 0 hl
    have hlen := length_mulRow p.toNat qs rs 0 hl
    cases hm : mulRow p.toNat qs rs 0 with
    | nil =>
      rw [hm] at hlen
      simp only [List.length_nil] at hlen
      rw [← hlen] at hp
      simp at hp
    | cons r rest =>
      rw [hm] at hrow hlen
      simp only [List.length_cons] at hlen hp
      have hrest : ps.length = rest.length := by omega
      simp only [mulWords, hm, wordsValue]
      rw [ih rest hrest (by omega)]
      have hpow : (2 : Nat) ^ (32 * rs.length) = 2 ^ 32 * 2 ^ (32 * rest.length) := by
        rw [← pow_add]; congr 1; omega
      simp only [wordsValue] at hrow
      have hr := r.isLt
      rw [hpow] at hrow ⊢
      have h1 : (p.toNat + 2 ^ 32 * wordsValue ps) * wordsValue qs + wordsValue rs
          ≡ r.toNat + 2 ^ 32 * (wordsValue ps * wordsValue qs + wordsValue rest) [MOD 2 ^ 32 * 2 ^ (32 * rest.length)] := by
        have : (p.toNat + 2 ^ 32 * wordsValue ps) * wordsValue qs + wordsValue rs
            = (p.toNat * wordsValue qs + wordsValue rs + 0) + 2 ^ 32 * (wordsValue ps * wordsValue qs) := by ring
        rw [this]
        have h2 : p.toNat * wordsValue qs + wordsValue rs + 0 ≡ r.toNat + 2 ^ 32 * wordsValue rest
            [MOD 2 ^ 32 * 2 ^ (32 * rest.length)] := by
          rw [hrow]; exact (Nat.mod_modEq _ _).symm
        have h3 := h2.add_right (2 ^ 32 * (wordsValue ps * wordsValue qs))
        have h4 : r.toNat + 2 ^ 32 * wordsValue rest + 2 ^ 32 * (wordsValue ps * wordsValue qs)
            = r.toNat + 2 ^ 32 * (wordsValue ps * wordsValue qs + wordsValue rest) := by ring
        rw [h4] at h3
        exact h3
      rw [h1, Nat.mod_mul, Nat.add_mul_mod_self_left, Nat.add_mul_div_left _ _ (by positivity),
        Nat.mod_eq_of_lt hr, Nat.div_eq_of_lt hr, Nat.zero_add]

/-- The multiplier gives the low 128 bits of the product (R140). -/
theorem mul128_eq (p q : Value) : mul128 p q = p * q := by
  apply BitVec.eq_of_toNat_eq
  have hz : wordsValue (wordsOf 0) = 0 := by rw [wordsValue_wordsOf]; rfl
  rw [mul128, toNat_ofWords, wordsValue_mulWords _ _ _ (by simp) (by simp), hz, wordsValue_wordsOf, wordsValue_wordsOf]
  simp [BitVec.toNat_mul]

/-! ### Power -/

theorem powLoop_eq (e : Value) (n k : Nat) (r p : Value) (h : n + k = 128) :
    powLoop e n k r p = r * p ^ (e.toNat / 2 ^ k) := by
  induction n generalizing k r p with
  | zero =>
    have hk : k = 128 := by omega
    subst hk
    rw [Nat.div_eq_of_lt e.isLt]
    simp [powLoop]
  | succ n ih =>
    have hbit : e.getLsbD k = decide (e.toNat / 2 ^ k % 2 = 1) := by
      rw [BitVec.getLsbD, Nat.testBit_eq_decide_div_mod_eq]
    have hstep : e.toNat / 2 ^ (k + 1) = e.toNat / 2 ^ k / 2 := by rw [pow_succ, Nat.div_div_eq_div_mul]
    rw [powLoop, ih (k + 1) _ _ (by omega), mul128_eq, mul128_eq, hbit, hstep]
    generalize e.toNat / 2 ^ k = m
    have hm : m = 2 * (m / 2) + m % 2 := by omega
    rcases Nat.mod_two_eq_zero_or_one m with h0 | h0
    · simp only [h0, Nat.zero_ne_one, decide_false, Bool.false_eq_true, if_false]
      conv_rhs => rw [hm, h0]
      rw [Nat.add_zero, pow_mul, sq]
    · simp only [h0, decide_true, if_true]
      conv_rhs => rw [hm, h0]
      rw [pow_add, pow_mul, sq, pow_one]
      ring

/-- The power unit gives `u(a)^u(e)` modulo 2^128 (R144). -/
theorem pow128_eq (a e : Value) : pow128 a e = BitVec.ofNat 128 (a.toNat ^ e.toNat) := by
  rw [pow128, powLoop_eq e 128 0 1 a (by omega), pow_zero, Nat.div_one, one_mul]
  apply BitVec.eq_of_toNat_eq
  rw [BitVec.toNat_ofNat]
  generalize e.toNat = n
  induction n with
  | zero => rfl
  | succ n ih => rw [pow_succ, pow_succ, BitVec.toNat_mul, ih, Nat.mod_mul_mod]

/-! ### Division engine -/

theorem findShift_spec (r d : Nat) (fuel k : Nat) (hk : d * 2 ^ k ≤ r) (hr : r < d * 2 ^ (k + fuel + 1)) :
    d * 2 ^ findShift r d fuel k ≤ r ∧ r < d * 2 ^ (findShift r d fuel k + 1) := by
  induction fuel generalizing k with
  | zero => exact ⟨hk, by simpa [findShift] using hr⟩
  | succ fuel ih =>
    unfold findShift
    split
    · rename_i h
      exact ih (k + 1) ((Nat.le_div_iff_mul_le (by positivity)).mp h)
        (by rw [show k + 1 + fuel + 1 = k + (fuel + 1) + 1 by omega]; exact hr)
    · rename_i h
      refine ⟨hk, ?_⟩
      rw [ge_iff_le, not_le] at h
      exact (Nat.div_lt_iff_lt_mul (by positivity)).mp h

/-- The loop of R150 keeps `d * q + r` and ends below the divisor, when the fuel covers the remaining passes. -/
theorem udivLoop_spec (d : Nat) (hd : 0 < d) (fuel q r : Nat) (hr : r < 2 ^ 128) (hf : r < d * 2 ^ fuel) :
    d * (udivLoop d fuel q r).1 + (udivLoop d fuel q r).2 = d * q + r ∧ (udivLoop d fuel q r).2 < d := by
  induction fuel generalizing q r with
  | zero => simpa [udivLoop] using hf
  | succ fuel ih =>
    unfold udivLoop
    split
    · rename_i h
      have hs := findShift_spec r d 128 0 (by simpa using h.2)
        (lt_of_lt_of_le hr (by
          calc 2 ^ 128 ≤ 1 * 2 ^ (0 + 128 + 1) := by norm_num
            _ ≤ d * 2 ^ (0 + 128 + 1) := Nat.mul_le_mul_right _ hd))
      generalize findShift r d 128 0 = k at hs
      obtain ⟨h1, h2⟩ := hs
      have hk : k ≤ fuel := by
        by_contra hcon
        have : d * 2 ^ (fuel + 1) ≤ d * 2 ^ k := Nat.mul_le_mul_left _ (Nat.pow_le_pow_right (by omega) (by omega))
        omega
      have h3 : r - d * 2 ^ k < d * 2 ^ k := by rw [pow_succ, ← Nat.mul_assoc] at h2; omega
      have h4 : d * 2 ^ k ≤ d * 2 ^ fuel := Nat.mul_le_mul_left _ (Nat.pow_le_pow_right (by omega) hk)
      obtain ⟨h5, h6⟩ := ih (q + 2 ^ k) (r - d * 2 ^ k) (by omega) (by omega)
      refine ⟨?_, h6⟩
      simp only
      rw [h5, Nat.mul_add]
      omega
    · rename_i h
      refine ⟨rfl, ?_⟩
      simp only
      by_contra hcon
      exact h ⟨by omega, by omega⟩

/-- The engine gives `floor(u(n)/u(d))` and `u(n) mod u(d)` (R151). -/
theorem udiv_eq (n d : Value) (hd : d ≠ 0) : udiv n d = (n / d, n % d) := by
  have hd' : 0 < d.toNat := Nat.pos_of_ne_zero fun h => hd (BitVec.eq_of_toNat_eq (by simpa using h))
  have hs := udivLoop_spec d.toNat hd' 128 0 n.toNat n.isLt
    (lt_of_lt_of_le n.isLt (by
      calc 2 ^ 128 = 1 * 2 ^ 128 := by norm_num
        _ ≤ d.toNat * 2 ^ 128 := Nat.mul_le_mul_right _ hd'))
  unfold udiv
  generalize udivLoop d.toNat 128 0 n.toNat = qr at hs
  obtain ⟨q, r⟩ := qr
  simp only [Nat.mul_zero, Nat.zero_add] at hs
  obtain ⟨h1, h2⟩ := hs
  have hq : n.toNat / d.toNat = q := by
    rw [← h1, Nat.mul_add_div hd', Nat.div_eq_of_lt h2, Nat.add_zero]
  have hr : n.toNat % d.toNat = r := by
    rw [← h1, Nat.mul_add_mod, Nat.mod_eq_of_lt h2]
  simp only [Prod.mk.injEq]
  constructor
  · apply BitVec.eq_of_toNat_eq
    rw [BitVec.toNat_ofNat, BitVec.toNat_udiv, hq, Nat.mod_eq_of_lt]
    exact lt_of_le_of_lt (hq ▸ Nat.div_le_self _ _) n.isLt
  · apply BitVec.eq_of_toNat_eq
    rw [BitVec.toNat_ofNat, BitVec.toNat_umod, hr, Nat.mod_eq_of_lt]
    exact lt_of_le_of_lt (hr ▸ Nat.mod_le _ _) n.isLt

theorem magnitude_ne_zero (v : Value) (h : v ≠ 0) : magnitude v ≠ 0 := by
  intro hc
  apply h
  have h1 := magnitude_toNat v
  rw [hc] at h1
  apply BitVec.eq_of_toInt_eq
  have : v.toInt = 0 := Int.natAbs_eq_zero.mp (by simpa using h1.symm)
  simpa using this

/-- The signed path truncates toward zero; the remainder carries the dividend's sign; `min / -1` wraps to min (R156). -/
theorem sdiv_eq (a b : Value) (hb : b ≠ 0) :
    sdiv a b = (BitVec.ofInt 128 (a.toInt.tdiv b.toInt), BitVec.ofInt 128 (a.toInt.tmod b.toInt)) := by
  have hneg : ∀ (x : Value) (m : Nat), x.toNat = m → neg128 x = BitVec.ofInt 128 (-(m : Int)) := by
    intro x m hx
    rw [neg128_eq, ← hx, BitVec.ofInt_neg, BitVec.ofInt_natCast, BitVec.ofNat_toNat, BitVec.setWidth_eq]
  have hpos : ∀ (x : Value) (m : Nat), x.toNat = m → x = BitVec.ofInt 128 (m : Int) := by
    intro x m hx
    rw [← hx, BitVec.ofInt_natCast, BitVec.ofNat_toNat, BitVec.setWidth_eq]
  have hq : (magnitude a / magnitude b).toNat = a.toInt.natAbs / b.toInt.natAbs := by
    rw [BitVec.toNat_udiv, magnitude_toNat, magnitude_toNat]
  have hr : (magnitude a % magnitude b).toNat = a.toInt.natAbs % b.toInt.natAbs := by
    rw [BitVec.toNat_umod, magnitude_toNat, magnitude_toNat]
  have hx : a.toInt = if isNeg a then -(a.toInt.natAbs : Int) else (a.toInt.natAbs : Int) := by
    have := isNeg_iff a
    split <;> rename_i h <;> simp only [h, true_iff, Bool.false_eq_true, false_iff] at this <;> omega
  have hy : b.toInt = if isNeg b then -(b.toInt.natAbs : Int) else (b.toInt.natAbs : Int) := by
    have := isNeg_iff b
    split <;> rename_i h <;> simp only [h, true_iff, Bool.false_eq_true, false_iff] at this <;> omega
  unfold sdiv
  rw [udiv_eq _ _ (magnitude_ne_zero b hb), hx, hy]
  generalize a.toInt.natAbs = m at hq hr
  generalize b.toInt.natAbs = n at hq hr
  have nq := hneg _ _ hq
  have pq := hpos _ _ hq
  have nr := hneg _ _ hr
  have pr := hpos _ _ hr
  rw [Int.natCast_ediv] at nq pq
  rw [Int.natCast_emod] at nr pr
  have tq : (m : Int).tdiv n = (m : Int) / n := Int.tdiv_eq_ediv_of_nonneg (by omega)
  have tr : (m : Int).tmod n = (m : Int) % n := Int.tmod_eq_emod_of_nonneg (by omega)
  cases isNeg a <;> cases isNeg b <;>
    simp only [ne_eq, not_true_eq_false, Bool.false_eq_true, Bool.true_eq_false, not_false_eq_true, if_true, if_false,
      Int.neg_tdiv, Int.tdiv_neg, Int.neg_tmod, Int.tmod_neg, Int.neg_neg, tq, tr, Prod.mk.injEq]
  · exact ⟨pq, pr⟩
  · exact ⟨nq, pr⟩
  · exact ⟨nq, nr⟩
  · exact ⟨pq, nr⟩

/-! ### Root finder -/

/-- The search keeps `r^n <= v` and, once the bits are spent, `v < (r+1)^n`. -/
theorem rootSearch_spec (v n k r : Nat) (hr : r ^ n ≤ v) (hv : v < (r + 2 ^ k) ^ n) :
    rootSearch v n k r ^ n ≤ v ∧ v < (rootSearch v n k r + 1) ^ n := by
  induction k generalizing r with
  | zero => exact ⟨hr, by simpa [rootSearch] using hv⟩
  | succ k ih =>
    unfold rootSearch
    split
    · rename_i h
      exact ih _ h (by rw [Nat.add_assoc, ← two_mul, ← pow_succ']; exact hv)
    · rename_i h
      exact ih _ hr (by omega)

/-- The root finder returns the largest `r` with `r^n <= v` (R170). -/
theorem iroot_spec (v n : Nat) (hn : 1 ≤ n) (hv : v < 2 ^ 128) : iroot v n ^ n ≤ v ∧ v < (iroot v n + 1) ^ n := by
  unfold iroot
  split
  · rename_i h
    subst h
    rw [zero_pow (by omega)]
    simp
  · rename_i h0
    split
    · rename_i h
      refine ⟨by rw [one_pow]; omega, ?_⟩
      calc v < 2 ^ 128 := hv
        _ ≤ 2 ^ n := Nat.pow_le_pow_right (by omega) h
    · apply rootSearch_spec
      · rw [zero_pow (by omega)]; omega
      · rw [Nat.zero_add]
        calc v < 2 ^ 128 := hv
          _ ≤ (2 ^ 128) ^ n := Nat.le_self_pow (by omega) _

/-- No root exceeds its radicand (R171: "The result never overflows"). -/
theorem iroot_le (v n : Nat) (hn : 1 ≤ n) (hv : v < 2 ^ 128) : iroot v n ≤ v :=
  le_trans (Nat.le_self_pow (by omega) _) (iroot_spec v n hn hv).1

end Sys2Proof.Machine
end

