-- ==== Sys2Proof/Laws/Text.lean ====
section
/-! SUPPORT. The digit extractor: rendering is the positional notation of Mathlib's `Nat.digits` (R183), parsing is the
positional value of the characters (R190). -/

namespace Sys2Proof.Machine

/-- The base check (R180, R226). -/
theorem textBase_cases (b : Value) :
    (textBase b = .ok b.toNat ∧ 2 ≤ b.toNat ∧ b.toNat ≤ 21) ∨
      (textBase b = .error .invalidBase ∧ (b.toNat < 2 ∨ 21 < b.toNat)) := by
  unfold textBase
  split
  · rename_i h; exact .inr ⟨rfl, h⟩
  · exact .inl ⟨rfl, by omega, by omega⟩

theorem convertedNumber_lt (signed : Bool) (a : Value) : convertedNumber signed a < 2 ^ 128 := by
  unfold convertedNumber
  split <;> exact BitVec.isLt _

/-- The number converted: `u(a)` or `|s(a)|` (R181). -/
theorem convertedNumber_eq (signed : Bool) (a : Value) :
    convertedNumber signed a = if signed then a.toInt.natAbs else a.toNat := by
  unfold convertedNumber
  rw [magnitude_toNat]

/-- The loop of RENDER prepends the digits of `m`, most significant first (R183). -/
theorem renderLoop_eq (base : Nat) (hb : 2 ≤ base) (fuel m : Nat) (t : List Byte) (h : m < base ^ fuel) :
    renderLoop base fuel m t = ((Nat.digits base m).map digitCode).reverse ++ t := by
  induction fuel generalizing m t with
  | zero =>
    have : m = 0 := by simpa using h
    subst this
    simp [renderLoop]
  | succ fuel ih =>
    unfold renderLoop
    split
    · rename_i h0
      subst h0
      simp
    · rename_i h0
      rw [ih _ _ (Nat.div_lt_of_lt_mul (by rwa [← pow_succ'])),
        Nat.digits_def' (b := base) (n := m) (by omega) (by omega)]
      simp

/-- `RENDER(m, B)` (R183). -/
theorem render_eq (m base : Nat) (hb : 2 ≤ base) (hm : m < 2 ^ 128) :
    render m base = if m = 0 then [digitCode 0] else ((Nat.digits base m).map digitCode).reverse := by
  unfold render
  split
  · rfl
  · rw [renderLoop_eq base hb 128 m [] (lt_of_lt_of_le hm (Nat.pow_le_pow_left hb 128)), List.append_nil]

/-- No rendered number is longer than 128 characters (R186: the texts are 1 to 129 characters with the sign). -/
theorem length_render_le (m base : Nat) (hb : 2 ≤ base) (hm : m < 2 ^ 128) : (render m base).length ≤ 128 := by
  rw [render_eq m base hb hm]
  split
  · simp
  · rw [List.length_reverse, List.length_map]
    exact (Nat.digits_length_le_iff (by omega) m).mpr (lt_of_lt_of_le hm (Nat.pow_le_pow_left hb 128))

/-- A text of TOSTR fits STRBUF (R186). -/
theorem length_tostrText_le (signed : Bool) (a : Value) (base : Nat) (hb : 2 ≤ base) :
    (tostrText signed a base).length ≤ 129 := by
  have := length_render_le (convertedNumber signed a) base hb (convertedNumber_lt signed a)
  unfold tostrText
  rw [List.length_append]
  split <;> simp <;> omega

/-- A character that PARSE accepts in base `B`: a decimal digit below the base (R188). -/
def isDigitOf (base : Nat) (c : Byte) : Bool := 0x30 ≤ c.toNat && c.toNat ≤ 0x39 && decide (c.toNat - 0x30 < base)

/-- The positional value of digit characters after `n` (R190). -/
def digitsValue (base : Nat) (n : Nat) (cs : List Byte) : Nat := cs.foldl (fun n c => n * base + (c.toNat - 0x30)) n

/-- Where every character is a digit of the base, PARSE accumulates their value modulo 2^128 (R189, R190). -/
theorem parseDigits_ok (base : Nat) (cs : List Byte) (acc : Value) (n : Nat) (hacc : acc = BitVec.ofNat 128 n)
    (h : cs.all (isDigitOf base) = true) :
    parseDigits base acc cs = .ok (BitVec.ofNat 128 (digitsValue base n cs)) := by
  induction cs generalizing acc n with
  | nil => simp [parseDigits, digitsValue, hacc]
  | cons c cs ih =>
    simp only [List.all_cons, Bool.and_eq_true] at h
    obtain ⟨hc, hcs⟩ := h
    simp only [isDigitOf, Bool.and_eq_true, decide_eq_true_eq] at hc
    unfold parseDigits
    rw [if_neg (by omega), add128_eq _ _ _ (by omega), mul128_eq]
    exact ih _ (n * base + (c.toNat - 0x30))
      (by rw [hacc, ← BitVec.ofNat_mul, ← BitVec.ofNat_add]; simp) hcs

/-- Otherwise the literal is malformed (R188). -/
theorem parseDigits_error (base : Nat) (cs : List Byte) (acc : Value) (h : cs.all (isDigitOf base) = false) :
    parseDigits base acc cs = .error .malformedLiteral := by
  induction cs generalizing acc with
  | nil => simp at h
  | cons c cs ih =>
    unfold parseDigits
    split
    · rfl
    · rename_i hc
      refine ih _ ?_
      have hd : isDigitOf base c = true := by
        simp only [isDigitOf, Bool.and_eq_true, decide_eq_true_eq]
        omega
      simpa [hd] using h

end Sys2Proof.Machine
end

