-- ==== Sys2Proof/Tests/Slice0.lean ====
section
/-! SUPPORT. Tests of the model against the spec: words and results are those of 95_test_vectors.md (its vector number stands in
the comment), of the rules' own corner cases, or worked by hand from a rule. After them, for every statement with hypotheses,
a state and operands that meet them. -/

namespace Sys2Proof.Tests

open Sys2Proof Sys2Proof.Machine

/-- The start state of 95_test_vectors.md section 2: x1 and x2 as given, x3 = 0xDEAD, x4 = 0xBEEF. -/
def block (a b : Value) : State :=
  { State.reset with x := { RegFile.zero with x1 := a, x2 := b, x3 := 0xDEAD, x4 := 0xBEEF } }

/-- The same with a text in STRBUF and a length in STRLEN. -/
def blockText (b : Value) (text : List Byte) (len : Byte) : State :=
  { block 0 b with strbuf := Memory.ofText text, strlen := len }

/-- A view of the next state; none where there is none. -/
def after {α : Type} (r : Result) (f : State → α) : Option α :=
  match r with
  | .next t => some (f t)
  | _ => none

/-- x[r] and ERR after a command. -/
def result (r : Result) (d : Reg) : Option (Value × BitVec 4) := after r fun t => (readReg d t, t.err)

/-- STRLEN, the first `n` bytes of STRBUF and ERR after a command. -/
def textResult (r : Result) (n : Nat) : Option (Nat × List Byte × BitVec 4) :=
  after r fun t => (t.strlen.toNat, t.strbuf.bytes n, t.err)

/-! ### WellFormed: each check refuses an ill-formed term -/

/-- R88: OP = 0x00 and OP = 0x18 are reserved, 0x01 and 0x17 are listed. -/
theorem test_opListed : opListed 0x00000000#32 = false ∧ opListed 0x00000018#32 = false ∧ opListed 0x0000003F#32 = false ∧
    opListed 0x00000001#32 = true ∧ opListed 0x00000017#32 = true := by decide

/-- R88: bit 7 must be 0 (V203). -/
theorem test_res0Clear : res0Clear 0x00008B81#32 = false ∧ res0Clear 0x00008B01#32 = true := by decide

/-- R88: bits 31:20 must be 0 (V204, V205). -/
theorem test_res1Clear : res1Clear 0x00108B01#32 = false ∧ res1Clear 0x80008B01#32 = false ∧
    res1Clear 0x000E8B01#32 = true := by decide

/-- R88: each way a word is illegal. -/
theorem test_legalWord : legalWord 0x00000018#32 = false ∧ legalWord 0x00008B81#32 = false ∧ legalWord 0x80008B01#32 = false ∧
    legalWord 0x00008B01#32 = true := by decide

/-- R62, R63: an 8-bit, a 16-bit, a 64-bit and a misaligned access are refused. -/
theorem test_legalAccess : legalAccess 0x100 1 = false ∧ legalAccess 0x100 2 = false ∧ legalAccess 0x100 8 = false ∧
    legalAccess 0x102 4 = false ∧ legalAccess 0x104 4 = true := by decide

/-- Every command term is well formed (log entry 18). -/
theorem test_wellFormed : Instr.wellFormed (.divremS .x7 .x0 .x7 .x7) = true := by decide

/-- Illegal words are refused by name (V200 to V205). -/
theorem test_decode_rejects : decodeWord 0x00000000#32 = .error .reservedOpcode ∧
    decodeWord 0x00000018#32 = .error .reservedOpcode ∧ decodeWord 0x0000003F#32 = .error .reservedOpcode ∧
    decodeWord 0x00008B81#32 = .error .reservedBit7 ∧ decodeWord 0x00108B01#32 = .error .reservedHighBits ∧
    decodeWord 0x80008B01#32 = .error .reservedHighBits := by decide

/-! ### Decoding: a word of every row, from the encodings of 95_test_vectors.md -/

/-- V1: OP = 0x01, S = 0. -/
theorem test_decode_add : decodeWord 0x00008B01#32 = .ok (.add .x3 .x1 .x2) ∧ encode (.add .x3 .x1 .x2) = 0x00008B01#32 := by
    decide

/-- V8: OP = 0x02, S = 0. -/
theorem test_decode_sub : decodeWord 0x00008B02#32 = .ok (.sub .x3 .x1 .x2) ∧ encode (.sub .x3 .x1 .x2) = 0x00008B02#32 := by
    decide

/-- V15: OP = 0x03, S = 0. -/
theorem test_decode_neg : decodeWord 0x00000B03#32 = .ok (.neg .x3 .x1) ∧ encode (.neg .x3 .x1) = 0x00000B03#32 := by decide

/-- V20: OP = 0x04, S = 0. -/
theorem test_decode_not : decodeWord 0x00000B04#32 = .ok (.not .x3 .x1) ∧ encode (.not .x3 .x1) = 0x00000B04#32 := by decide

/-- V23: OP = 0x05, S = 0. -/
theorem test_decode_and : decodeWord 0x00008B05#32 = .ok (.and .x3 .x1 .x2) ∧ encode (.and .x3 .x1 .x2) = 0x00008B05#32 := by
    decide

/-- V24: OP = 0x06, S = 0. -/
theorem test_decode_or : decodeWord 0x00008B06#32 = .ok (.or .x3 .x1 .x2) ∧ encode (.or .x3 .x1 .x2) = 0x00008B06#32 := by
    decide

/-- V28: OP = 0x07, S = 0. -/
theorem test_decode_xor : decodeWord 0x0000DB07#32 = .ok (.xor .x3 .x3 .x3) ∧ encode (.xor .x3 .x3 .x3) = 0x0000DB07#32 := by
    decide

/-- V30: OP = 0x08, S = 0. -/
theorem test_decode_sll : decodeWord 0x00008B08#32 = .ok (.sll .x3 .x1 .x2) ∧ encode (.sll .x3 .x1 .x2) = 0x00008B08#32 := by
    decide

/-- V42: OP = 0x09, S = 0. -/
theorem test_decode_srl : decodeWord 0x00008B09#32 = .ok (.srl .x3 .x1 .x2) ∧ encode (.srl .x3 .x1 .x2) = 0x00008B09#32 := by
    decide

/-- V51: OP = 0x0A, S = 0. -/
theorem test_decode_cmpU : decodeWord 0x00008B0A#32 = .ok (.cmpU .x3 .x1 .x2) ∧ encode (.cmpU .x3 .x1 .x2) = 0x00008B0A#32 :=
    by decide

/-- a program of section 3: OP = 0x0A, S = 1. -/
theorem test_decode_cmpS : decodeWord 0x00006E4A#32 = .ok (.cmpS .x6 .x5 .x1) ∧ encode (.cmpS .x6 .x5 .x1) = 0x00006E4A#32 :=
    by decide

/-- a program of section 3: OP = 0x0B, S = 0. -/
theorem test_decode_mul : decodeWord 0x00009D0B#32 = .ok (.mul .x5 .x3 .x2) ∧ encode (.mul .x5 .x3 .x2) = 0x00009D0B#32 := by
    decide

/-- V94: OP = 0x0C, S = 0. -/
theorem test_decode_divU : decodeWord 0x00008B0C#32 = .ok (.divU .x3 .x1 .x2) ∧ encode (.divU .x3 .x1 .x2) = 0x00008B0C#32 :=
    by decide

/-- V91: OP = 0x0C, S = 1. -/
theorem test_decode_divS : decodeWord 0x00008B4C#32 = .ok (.divS .x3 .x1 .x2) ∧ encode (.divS .x3 .x1 .x2) = 0x00008B4C#32 :=
    by decide

/-- V106: OP = 0x0D, S = 0. -/
theorem test_decode_remU : decodeWord 0x00008B0D#32 = .ok (.remU .x3 .x1 .x2) ∧ encode (.remU .x3 .x1 .x2) = 0x00008B0D#32 :=
    by decide

/-- V92: OP = 0x0D, S = 1. -/
theorem test_decode_remS : decodeWord 0x00008B4D#32 = .ok (.remS .x3 .x1 .x2) ∧ encode (.remS .x3 .x1 .x2) = 0x00008B4D#32 :=
    by decide

/-- V98: OP = 0x0E, S = 0. -/
theorem test_decode_divremU : decodeWord 0x00088B0E#32 = .ok (.divremU .x3 .x4 .x1 .x2) ∧ encode (.divremU .x3 .x4 .x1 .x2) =
    0x00088B0E#32 := by decide

/-- V87: OP = 0x0E, S = 1. -/
theorem test_decode_divremS : decodeWord 0x00088B4E#32 = .ok (.divremS .x3 .x4 .x1 .x2) ∧ encode (.divremS .x3 .x4 .x1 .x2) =
    0x00088B4E#32 := by decide

/-- V75: OP = 0x0F, S = 0. -/
theorem test_decode_pow : decodeWord 0x00008B0F#32 = .ok (.pow .x3 .x1 .x2) ∧ encode (.pow .x3 .x1 .x2) = 0x00008B0F#32 := by
    decide

/-- V117: OP = 0x10, S = 0. -/
theorem test_decode_rootU : decodeWord 0x00008B10#32 = .ok (.rootU .x3 .x1 .x2) ∧ encode (.rootU .x3 .x1 .x2) = 0x00008B10#32
    := by decide

/-- V109: OP = 0x10, S = 1. -/
theorem test_decode_rootS : decodeWord 0x00008B50#32 = .ok (.rootS .x3 .x1 .x2) ∧ encode (.rootS .x3 .x1 .x2) = 0x00008B50#32
    := by decide

/-- V135: OP = 0x11, S = 0. -/
theorem test_decode_sqrtU : decodeWord 0x00000B11#32 = .ok (.sqrtU .x3 .x1) ∧ encode (.sqrtU .x3 .x1) = 0x00000B11#32 := by
    decide

/-- V127: OP = 0x11, S = 1. -/
theorem test_decode_sqrtS : decodeWord 0x00000B51#32 = .ok (.sqrtS .x3 .x1) ∧ encode (.sqrtS .x3 .x1) = 0x00000B51#32 := by
    decide

/-- V138: OP = 0x12, S = 0. -/
theorem test_decode_digitsU : decodeWord 0x00008B12#32 = .ok (.digitsU .x3 .x1 .x2) ∧ encode (.digitsU .x3 .x1 .x2) =
    0x00008B12#32 := by decide

/-- V144: OP = 0x12, S = 1. -/
theorem test_decode_digitsS : decodeWord 0x00008B52#32 = .ok (.digitsS .x3 .x1 .x2) ∧ encode (.digitsS .x3 .x1 .x2) =
    0x00008B52#32 := by decide

/-- V157: OP = 0x13, S = 0. -/
theorem test_decode_tostrU : decodeWord 0x00008813#32 = .ok (.tostrU .x1 .x2) ∧ encode (.tostrU .x1 .x2) = 0x00008813#32 :=
    by decide

/-- V154: OP = 0x13, S = 1. -/
theorem test_decode_tostrS : decodeWord 0x00008853#32 = .ok (.tostrS .x1 .x2) ∧ encode (.tostrS .x1 .x2) = 0x00008853#32 :=
    by decide

/-- V170: OP = 0x14, S = 0. -/
theorem test_decode_parse : decodeWord 0x00008314#32 = .ok (.parse .x3 .x2) ∧ encode (.parse .x3 .x2) = 0x00008314#32 := by
    decide

/-- V191: OP = 0x15, S = 0. -/
theorem test_decode_ext64U : decodeWord 0x00000B15#32 = .ok (.ext64U .x3 .x1) ∧ encode (.ext64U .x3 .x1) = 0x00000B15#32 :=
    by decide

/-- V190: OP = 0x15, S = 1. -/
theorem test_decode_ext64S : decodeWord 0x00000B55#32 = .ok (.ext64S .x3 .x1) ∧ encode (.ext64S .x3 .x1) = 0x00000B55#32 :=
    by decide

/-- V196: OP = 0x16, S = 0. -/
theorem test_decode_cminU : decodeWord 0x00000316#32 = .ok (.cminU .x3) ∧ encode (.cminU .x3) = 0x00000316#32 := by decide

/-- V197: OP = 0x16, S = 1. -/
theorem test_decode_cminS : decodeWord 0x00000356#32 = .ok (.cminS .x3) ∧ encode (.cminS .x3) = 0x00000356#32 := by decide

/-- V198: OP = 0x17, S = 0. -/
theorem test_decode_cmaxU : decodeWord 0x00000317#32 = .ok (.cmaxU .x3) ∧ encode (.cmaxU .x3) = 0x00000317#32 := by decide

/-- V199: OP = 0x17, S = 1. -/
theorem test_decode_cmaxS : decodeWord 0x00000357#32 = .ok (.cmaxS .x3) ∧ encode (.cmaxS .x3) = 0x00000357#32 := by decide

/-- S on an S-independent operation and unread fields are ignored (V206, V207, V208). -/
theorem test_decode_ignored : decodeWord 0x00008B41#32 = .ok (.add .x3 .x1 .x2) ∧
    decodeWord 0x000E8B01#32 = .ok (.add .x3 .x1 .x2) ∧ decodeWord 0x00008B03#32 = .ok (.neg .x3 .x1) := by decide

/-- The pseudo-commands of R94 are other names of these words. -/
theorem test_pseudo : encode (Instr.mov .x3 .x1) = 0x00004B06#32 ∧ encode (Instr.clr .x3) = 0x0000DB07#32 := by decide

/-- The host's table interface reads the same decoder. -/
theorem test_decodeTableWord : decodeTableWord 32 0x00088B4E = some (.divremS .x3 .x4 .x1 .x2) ∧
    decodeTableWord 32 0 = none := by decide

/-! ### Commands: results of 95_test_vectors.md -/

/-- V1: the carry ripples through three words. -/
theorem test_add_v1 : result (exec (.add .x3 .x1 .x2) (block 0x00000000FFFFFFFFFFFFFFFFFFFFFFFF#128 1#128)) .x3 =
    some (0x00000001000000000000000000000000#128, 0#4) := by decide

/-- V2: word 1 is 0xFFFFFFFF + 0xFFFFFFFF + carry 1: the exact carry of rule R100 (90_conflicts.md C1). -/
theorem test_add_v2 : result (exec (.add .x3 .x1 .x2) (block 0x0000000000000001FFFFFFFFFFFFFFFF#128
    0x0000000000000000FFFFFFFF00000001#128)) .x3 =
    some (0x0000000000000002FFFFFFFF00000000#128, 0#4) := by decide

/-- V8: s = -2. -/
theorem test_sub_v8 : result (exec (.sub .x3 .x1 .x2) (block 5#128 7#128)) .x3 =
    some (0xFFFFFFFFFFFFFFFFFFFFFFFFFFFFFFFE#128, 0#4) := by decide

/-- V14: borrow through three words. -/
theorem test_sub_v14 : result (exec (.sub .x3 .x1 .x2) (block 0x00000001000000000000000000000000#128 1#128)) .x3 =
    some (0x00000000FFFFFFFFFFFFFFFFFFFFFFFF#128, 0#4) := by decide

/-- V17: -50. -/
theorem test_neg_v17 : result (exec (.neg .x3 .x1) (block 50#128 0#128)) .x3 =
    some (0xFFFFFFFFFFFFFFFFFFFFFFFFFFFFFFCE#128, 0#4) := by decide

/-- V18: min is its own negation, no signal. -/
theorem test_neg_v18 : result (exec (.neg .x3 .x1) (block 0x80000000000000000000000000000000#128 0#128)) .x3 =
    some (0x80000000000000000000000000000000#128, 0#4) := by decide

/-- V22. -/
theorem test_not_v22 : result (exec (.not .x3 .x1) (block 0x0000FFFF00000000FFFFFFFF12345678#128 0#128)) .x3 =
    some (0xFFFF0000FFFFFFFF00000000EDCBA987#128, 0#4) := by decide

/-- V23. -/
theorem test_and_v23 : result (exec (.and .x3 .x1 .x2) (block 0xF0F0F0F000000000FFFFFFFF0000FFFF#128
    0xFF00FF00FFFFFFFF0F0F0F0F00FF00FF#128)) .x3 =
    some (0xF000F000000000000F0F0F0F000000FF#128, 0#4) := by decide

/-- V24. -/
theorem test_or_v24 : result (exec (.or .x3 .x1 .x2) (block 0xF0F0F0F000000000FFFFFFFF0000FFFF#128
    0xFF00FF00FFFFFFFF0F0F0F0F00FF00FF#128)) .x3 =
    some (0xFFF0FFF0FFFFFFFFFFFFFFFF00FFFFFF#128, 0#4) := by decide

/-- V25. -/
theorem test_xor_v25 : result (exec (.xor .x3 .x1 .x2) (block 0xF0F0F0F000000000FFFFFFFF0000FFFF#128
    0xFF00FF00FFFFFFFF0F0F0F0F00FF00FF#128)) .x3 =
    some (0x0FF00FF0FFFFFFFFF0F0F0F000FFFF00#128, 0#4) := by decide

/-- V34. -/
theorem test_sll_v34 : result (exec (.sll .x3 .x1 .x2) (block 0x00000000000000008000000100000003#128 33#128)) .x3 =
    some (0x00000001000000020000000600000000#128, 0#4) := by decide

/-- V38. -/
theorem test_sll_v38 : result (exec (.sll .x3 .x1 .x2) (block 0x00000000000000008000000100000003#128 128#128)) .x3 =
    some (0#128, 0#4) := by decide

/-- V44. -/
theorem test_srl_v44 : result (exec (.srl .x3 .x1 .x2) (block 0xC0000000000000000000000180000000#128 31#128)) .x3 =
    some (0x00000001800000000000000000000003#128, 0#4) := by decide

/-- V49: logical for a negative value (rule R123). -/
theorem test_srl_v49 : result (exec (.srl .x3 .x1 .x2) (block 0xFFFFFFFFFFFFFFFFFFFFFFFFFFFFFFCE#128 1#128)) .x3 =
    some (0x7FFFFFFFFFFFFFFFFFFFFFFFFFFFFFE7#128, 0#4) := by decide

/-- V51. -/
theorem test_cmpU_v51 : after (exec (.cmpU .x3 .x1 .x2) (block 0xFFFFFFFFFFFFFFFFFFFFFFFFFFFFFFCE#128 7#128)) (fun t =>
    (readReg .x3 t, t.cmpres, t.err)) =
    some (1#128, 1#2, 0#4) := by decide

/-- V59. -/
theorem test_cmpU_v59 : after (exec (.cmpU .x3 .x1 .x2) (block 1#128 0x00000001000000000000000000000002#128)) (fun t =>
    (readReg .x3 t, t.cmpres, t.err)) =
    some (0xFFFFFFFFFFFFFFFFFFFFFFFFFFFFFFFF#128, 2#2, 0#4) := by decide

/-- V54. -/
theorem test_cmpS_v54 : after (exec (.cmpS .x3 .x1 .x2) (block 0#128 0xFFFFFFFFFFFFFFFFFFFFFFFFFFFFFFFF#128)) (fun t =>
    (readReg .x3 t, t.cmpres, t.err)) =
    some (1#128, 1#2, 0#4) := by decide

/-- V56. -/
theorem test_cmpS_v56 : after (exec (.cmpS .x3 .x1 .x2) (block 0x80000000000000000000000000000000#128
    0x7FFFFFFFFFFFFFFFFFFFFFFFFFFFFFFF#128)) (fun t => (readReg .x3 t, t.cmpres, t.err)) =
    some (0xFFFFFFFFFFFFFFFFFFFFFFFFFFFFFFFF#128, 2#2, 0#4) := by decide

/-- V64: -350 (§8). -/
theorem test_mul_v64 : result (exec (.mul .x3 .x1 .x2) (block 0xFFFFFFFFFFFFFFFFFFFFFFFFFFFFFFCE#128 7#128)) .x3 =
    some (0xFFFFFFFFFFFFFFFFFFFFFFFFFFFFFEA2#128, 0#4) := by decide

/-- V67: the 2^128 term is lost. -/
theorem test_mul_v67 : result (exec (.mul .x3 .x1 .x2) (block 0x00000000000000010000000000000003#128
    0x00000000000000010000000000000005#128)) .x3 =
    some (0x0000000000000008000000000000000F#128, 0#4) := by decide

/-- V75: 3^100 mod 2^128. -/
theorem test_pow_v75 : result (exec (.pow .x3 .x1 .x2) (block 3#128 100#128)) .x3 =
    some (0x673768565B41F775D6947D55CF3813D1#128, 0#4) := by decide +kernel

/-- V84: inverse of 7 modulo 2^128. -/
theorem test_pow_v84 : result (exec (.pow .x3 .x1 .x2) (block 7#128 0xFFFFFFFFFFFFFFFFFFFFFFFFFFFFFFFF#128)) .x3 =
    some (0xB6DB6DB6DB6DB6DB6DB6DB6DB6DB6DB7#128, 0#4) := by decide +kernel

/-- V94. -/
theorem test_divU_v94 : result (exec (.divU .x3 .x1 .x2) (block 0xFFFFFFFFFFFFFFFFFFFFFFFFFFFFFFFF#128 2#128)) .x3 =
    some (0x7FFFFFFFFFFFFFFFFFFFFFFFFFFFFFFF#128, 0#4) := by decide

/-- V104. -/
theorem test_divU_v104 : result (exec (.divU .x3 .x1 .x2) (block 12345#128 0#128)) .x3 =
    some (57005#128, 1#4) := by decide

/-- V91. -/
theorem test_divS_v91 : result (exec (.divS .x3 .x1 .x2) (block 0xFFFFFFFFFFFFFFFFFFFFFFFFFFFFFFCE#128 7#128)) .x3 =
    some (0xFFFFFFFFFFFFFFFFFFFFFFFFFFFFFFF9#128, 0#4) := by decide

/-- V95: trunc(-1/2) = 0. -/
theorem test_divS_v95 : result (exec (.divS .x3 .x1 .x2) (block 0xFFFFFFFFFFFFFFFFFFFFFFFFFFFFFFFF#128 2#128)) .x3 =
    some (0#128, 0#4) := by decide

/-- V106. -/
theorem test_remU_v106 : result (exec (.remU .x3 .x1 .x2) (block 12345#128 0#128)) .x3 =
    some (57005#128, 1#4) := by decide

/-- V92. -/
theorem test_remS_v92 : result (exec (.remS .x3 .x1 .x2) (block 0xFFFFFFFFFFFFFFFFFFFFFFFFFFFFFFCE#128
    0xFFFFFFFFFFFFFFFFFFFFFFFFFFFFFFF9#128)) .x3 =
    some (0xFFFFFFFFFFFFFFFFFFFFFFFFFFFFFFFF#128, 0#4) := by decide

/-- V93. -/
theorem test_remS_v93 : result (exec (.remS .x3 .x1 .x2) (block 50#128 0xFFFFFFFFFFFFFFFFFFFFFFFFFFFFFFF9#128)) .x3 =
    some (1#128, 0#4) := by decide

/-- V98. -/
theorem test_divremU_v98 : after (exec (.divremU .x3 .x4 .x1 .x2) (block 0xFFFFFFFFFFFFFFFFFFFFFFFFFFFFFFFF#128 10#128)) (fun
    t => (readReg .x3 t, readReg .x4 t, t.err)) =
    some (0x19999999999999999999999999999999#128, 5#128, 0#4) := by decide

/-- V108: rd = rd2: the quotient is kept (92_eei_decisions.md D33). -/
theorem test_divremU_v108 : result (exec (.divremU .x3 .x3 .x1 .x2) (block 50#128 7#128)) .x3 =
    some (7#128, 0#4) := by decide

/-- V96: quotient wraps to min. -/
theorem test_divremS_v96 : after (exec (.divremS .x3 .x4 .x1 .x2) (block 0x80000000000000000000000000000000#128
    0xFFFFFFFFFFFFFFFFFFFFFFFFFFFFFFFF#128)) (fun t => (readReg .x3 t, readReg .x4 t, t.err)) =
    some (0x80000000000000000000000000000000#128, 0#128, 0#4) := by decide

/-- V107: x4 stays 0xBEEF. -/
theorem test_divremS_v107 : result (exec (.divremS .x3 .x4 .x1 .x2) (block 0xFFFFFFFFFFFFFFFFFFFFFFFFFFFFFFCE#128 0#128)) .x3 =
    some (57005#128, 1#4) := by decide

/-- V119. -/
theorem test_rootU_v119 : result (exec (.rootU .x3 .x1 .x2) (block 0xFFFFFFFFFFFFFFFFFFFFFFFFFFFFFFFF#128 127#128)) .x3 =
    some (2#128, 0#4) := by decide

/-- V121: degree 2^128 - 1. -/
theorem test_rootU_v121 : result (exec (.rootU .x3 .x1 .x2) (block 5#128 0xFFFFFFFFFFFFFFFFFFFFFFFFFFFFFFFF#128)) .x3 =
    some (1#128, 0#4) := by decide

/-- V116: 5541191377756. -/
theorem test_rootS_v116 : result (exec (.rootS .x3 .x1 .x2) (block 0x7FFFFFFFFFFFFFFFFFFFFFFFFFFFFFFF#128 3#128)) .x3 =
    some (0x00000000000000000000050A28BE635C#128, 0#4) := by decide

/-- V126: both conditions: degree first (rule R229). -/
theorem test_rootS_v126 : result (exec (.rootS .x3 .x1 .x2) (block 0xFFFFFFFFFFFFFFFFFFFFFFFFFFFFFFF8#128 0#128)) .x3 =
    some (57005#128, 2#4) := by decide

/-- V135. -/
theorem test_sqrtU_v135 : result (exec (.sqrtU .x3 .x1) (block 0xFFFFFFFFFFFFFFFFFFFFFFFFFFFFFFFF#128 0#128)) .x3 =
    some (0x0000000000000000FFFFFFFFFFFFFFFF#128, 0#4) := by decide

/-- V130: sqrt(38407729575608) = 6197396. -/
theorem test_sqrtS_v130 : result (exec (.sqrtS .x3 .x1) (block 0x0000000000000000000022EE7F13F6B8#128 0#128)) .x3 =
    some (6197396#128, 0#4) := by decide

/-- V136: -1 is negative. -/
theorem test_sqrtS_v136 : result (exec (.sqrtS .x3 .x1) (block 0xFFFFFFFFFFFFFFFFFFFFFFFFFFFFFFFF#128 0#128)) .x3 =
    some (57005#128, 5#4) := by decide

/-- V143: 30 digits. -/
theorem test_digitsU_v143 : result (exec (.digitsU .x3 .x1 .x2) (block 0xFFFFFFFFFFFFFFFFFFFFFFFFFFFFFFFF#128 21#128)) .x3 =
    some (30#128, 0#4) := by decide

/-- V152. -/
theorem test_digitsU_v152 : result (exec (.digitsU .x3 .x1 .x2) (block 5#128 22#128)) .x3 =
    some (57005#128, 4#4) := by decide

/-- V144: 39 digits: magnitude 2^127, sign not counted. -/
theorem test_digitsS_v144 : result (exec (.digitsS .x3 .x1 .x2) (block 0x80000000000000000000000000000000#128 10#128)) .x3 =
    some (39#128, 0#4) := by decide

/-- V150. -/
theorem test_digitsS_v150 : result (exec (.digitsS .x3 .x1 .x2) (block 0xFFFFFFFFFFFFFFFFFFFFFFFFFFFFFFCE#128 10#128)) .x3 =
    some (2#128, 0#4) := by decide

/-- V191. -/
theorem test_ext64U_v191 : result (exec (.ext64U .x3 .x1) (block 0xDEADBEEF000000008000000000000000#128 0#128)) .x3 =
    some (0x00000000000000008000000000000000#128, 0#4) := by decide

/-- V190: bits 127:64 of a ignored. -/
theorem test_ext64S_v190 : result (exec (.ext64S .x3 .x1) (block 0xDEADBEEF000000008000000000000000#128 0#128)) .x3 =
    some (0xFFFFFFFFFFFFFFFF8000000000000000#128, 0#4) := by decide

/-- V195. -/
theorem test_ext64S_v195 : result (exec (.ext64S .x3 .x1) (block 0x00000000000000007FFFFFFFFFFFFFFF#128 0#128)) .x3 =
    some (0x00000000000000007FFFFFFFFFFFFFFF#128, 0#4) := by decide

/-- V196. -/
theorem test_cminU_v196 : result (exec (.cminU .x3) (block 0#128 0#128)) .x3 =
    some (0#128, 0#4) := by decide

/-- V197. -/
theorem test_cminS_v197 : result (exec (.cminS .x3) (block 0#128 0#128)) .x3 =
    some (0x80000000000000000000000000000000#128, 0#4) := by decide

/-- V198. -/
theorem test_cmaxU_v198 : result (exec (.cmaxU .x3) (block 0#128 0#128)) .x3 =
    some (0xFFFFFFFFFFFFFFFFFFFFFFFFFFFFFFFF#128, 0#4) := by decide

/-- V199. -/
theorem test_cmaxS_v199 : result (exec (.cmaxS .x3) (block 0#128 0#128)) .x3 =
    some (0x7FFFFFFFFFFFFFFFFFFFFFFFFFFFFFFF#128, 0#4) := by decide

/-- V98's remainder: REM.U of 2^128 - 1 by 10 (R154). -/
theorem test_remU_v98 : result (exec (.remU .x3 .x1 .x2) (block 0xFFFFFFFFFFFFFFFFFFFFFFFFFFFFFFFF#128 10#128)) .x3 =
    some (5#128, 0#4) := by decide

/-- V158: "1B71CC7C703IJD4G3K82FF6KEB3C03", and 0x00 after it (R186). -/
theorem test_tostrU_v158 : textResult (exec (.tostrU .x1 .x2) (block 0xFFFFFFFFFFFFFFFFFFFFFFFFFFFFFFFF#128 21#128)) 31 =
    some (30, [0x31, 0x42, 0x37, 0x31, 0x43, 0x43, 0x37, 0x43, 0x37, 0x30, 0x33, 0x49, 0x4A, 0x44, 0x34, 0x47, 0x33, 0x4B,
      0x38, 0x32, 0x46, 0x46, 0x36, 0x4B, 0x45, 0x42, 0x33, 0x43, 0x30, 0x33, 0x00], 0#4) := by decide

/-- V162: "-101", and 0x00 after it (R186). -/
theorem test_tostrS_v162 : textResult (exec (.tostrS .x1 .x2) (block 0xFFFFFFFFFFFFFFFFFFFFFFFFFFFFFFCE#128 7#128)) 5 =
    some (4, [0x2D, 0x31, 0x30, 0x31, 0x00], 0#4) := by decide

/-- V154: "-170141183460469231731687303715884105728", and 0x00 after it (R186). -/
theorem test_tostrS_v154 : textResult (exec (.tostrS .x1 .x2) (block 0x80000000000000000000000000000000#128 10#128)) 41 =
    some (40, [0x2D, 0x31, 0x37, 0x30, 0x31, 0x34, 0x31, 0x31, 0x38, 0x33, 0x34, 0x36, 0x30, 0x34, 0x36, 0x39, 0x32, 0x33,
      0x31, 0x37, 0x33, 0x31, 0x36, 0x38, 0x37, 0x33, 0x30, 0x33, 0x37, 0x31, 0x35, 0x38, 0x38, 0x34, 0x31, 0x30, 0x35, 0x37,
      0x32, 0x38, 0x00], 0#4) := by decide

/-- V169: base 22 leaves STRBUF and STRLEN as they were. -/
theorem test_tostrU_v169 : textResult (exec (.tostrU .x1 .x2) (writeReg .x1 5 (blockText 22 [0x41] 9))) 2 =
    some (9, [0x41, 0x00], 4#4) := by decide

/-- V170: "-50" in base 10. -/
theorem test_parse_v170 : result (exec (.parse .x3 .x2) (blockText 10 [0x2D, 0x35, 0x30] 3)) .x3 =
    some (0xFFFFFFFFFFFFFFFFFFFFFFFFFFFFFFCE#128, 0#4) := by decide

/-- V184: "1A" in base 16 is malformed: no letters (R188). -/
theorem test_parse_v184 : result (exec (.parse .x3 .x2) (blockText 16 [0x31, 0x41] 2)) .x3 = some (0xDEAD#128, 3#4) := by decide

/-! ### The window and the step -/

/-- 20_memory.md R64, R66: word 3 of x5 is at 0x05C; the first character is the low byte of the word at 0x100. -/
theorem test_window_places :
    readWord 0x05C (writeReg .x5 0x80000001000000000000000000000000#128 State.reset) = 0x80000001#32 ∧
    readWord 0x100 { State.reset with strbuf := Memory.ofText [0x2D, 0x35, 0x30] } = 0x0030352D#32 := by decide

/-- R35: a write to STRLEN keeps bits 7:0 alone. -/
theorem test_strlen_keeps_low_byte : (writeWord 0x088 0xFFFFFF85#32 State.reset).strlen = 0x85#8 := by decide

/-- The word of STATUS (R26): DONE with CMPRES = 2 and ERR = 0, and DONE with ERR = 6. -/
theorem test_statusWord : statusWord { State.reset with done := true, cmpres := 2 } = 0x00000022#32 ∧
    statusWord { State.reset with done := true, err := 6 } = 0x00000602#32 := by decide

/-- Program P1 step 3 by the decoder and the step: DIVREM.S x3, x4, x1, x2 on -50 and 7. -/
theorem test_step_runs_command : after (step ((block 0xFFFFFFFFFFFFFFFFFFFFFFFFFFFFFFCE 7).withFetchWord 32 0x00088B4E))
    (fun t => (readReg .x3 t, readReg .x4 t, statusWord t)) =
    some (0xFFFFFFFFFFFFFFFFFFFFFFFFFFFFFFF9, 0xFFFFFFFFFFFFFFFFFFFFFFFFFFFFFFFF, 0x00000002#32) := by decide

/-- V203: bit 7 set ends with ILLEGAL_COMMAND and writes no register; CMD keeps the word (R222). -/
theorem test_step_illegal_word : after (step ((block 5 7).withFetchWord 32 0x00008B81))
    (fun t => (readReg .x3 t, t.cmd, statusWord t)) = some (0xDEAD, 0x00008B81#32, 0x00000602#32) := by decide

/-! ### Hypotheses that can be met -/

/-- A block with a command in flight that has `n` cycles left, and with events `es` still to come. -/
def flight (w : Word) (n : Nat) (es : List HostEvent) : State :=
  { block 50 7 with cmd := w, busy := true, wait := n, pending := es }

/-- An idle block with events to come. -/
def idleWith (es : List HostEvent) : State := { block 50 7 with pending := es }

/-- The block after DIV.U by zero: DONE, ERR = 1. -/
def failed : State := { block 5 0 with done := true, err := 1 }

/-- DecodeDependsOnlyOnReadBits: two words that differ in S and in RD2, both read as ADD x3, x1, x2. -/
theorem test_witness_DecodeDependsOnlyOnReadBits : decodeWord 0x00008B01#32 = .ok (.add .x3 .x1 .x2) ∧
    0x000E8B41#32 &&& readMask (.add .x3 .x1 .x2) = 0x00008B01#32 &&& readMask (.add .x3 .x1 .x2) := by decide

/-- DecodedWordIsItsEncoding. -/
theorem test_witness_DecodedWordIsItsEncoding : decodeWord 0x000FFFC1#32 = .error .reservedBit7 ∧
    decodeWord 0x000FFF41#32 = .ok (.add .x7 .x7 .x7) := by decide

/-- IllegalWordRaisesIllegalCommand: each of the four conditions at its bounds, and a legal word next to them. -/
theorem test_witness_IllegalWord : (flight 0x00000081 0 []).cmd.extractLsb' 7 1 = 1#1 ∧
    (flight 0x00100001 0 []).cmd.extractLsb' 20 12 ≠ 0#12 ∧ (flight 0x80000001 0 []).cmd.extractLsb' 20 12 ≠ 0#12 ∧
    ((flight 0x00000000 0 []).cmd.extractLsb' 0 6).toNat = 0x00 ∧ ((flight 0x00000018 0 []).cmd.extractLsb' 0 6).toNat = 0x18 ∧
    ((flight 0x0000003F 0 []).cmd.extractLsb' 0 6).toNat = 0x3F ∧ ((flight 0x00000057 0 []).cmd.extractLsb' 0 6).toNat = 0x17 ∧
    (flight 0x00000057 0 []).busy = true ∧ (flight 0x00000057 0 []).wait = 0 ∧ (flight 0x00000057 0 []).inReset = false := by
  decide

/-- StepRunsDecodedCommand. -/
theorem test_witness_StepRunsDecodedCommand : (flight 0x00008B01 0 []).busy = true ∧ (flight 0x00008B01 0 []).wait = 0 ∧
    (flight 0x00008B01 0 []).inReset = false ∧ decodeWord (flight 0x00008B01 0 []).cmd = .ok (.add .x3 .x1 .x2) ∧
    (Instr.add .x3 .x1 .x2).wellFormed = true := by decide

/-- IdleBlockDoesNotChange. -/
theorem test_witness_IdleBlockDoesNotChange : failed.busy = false ∧ failed.pending = [] := by decide

/-- Words of every opcode the result statements speak of, with S = 0 and S = 1, and one with every unread bit set. -/
theorem test_witness_HasOpcode (op : Nat) (h1 : 1 ≤ op) (h2 : op ≤ 0x17) :
    HasOpcode (BitVec.ofNat 32 op) op ∧ (BitVec.ofNat 32 op).extractLsb' 6 1 = 0#1 ∧
    HasOpcode (BitVec.ofNat 32 (op + 0x40)) op ∧ (BitVec.ofNat 32 (op + 0x40)).extractLsb' 6 1 = 1#1 ∧
    HasOpcode (BitVec.ofNat 32 (op + 0x000FFF40)) op := by
  interval_cases op <;> exact ⟨⟨rfl, rfl, rfl⟩, rfl, ⟨rfl, rfl, rfl⟩, rfl, ⟨rfl, rfl, rfl⟩⟩

/-- NegationSignedReading: min, and the value next to it. -/
theorem test_witness_NegationSignedReading :
    readReg .x1 (block 0x80000000000000000000000000000000 0) = 0x80000000000000000000000000000000#128 ∧
    readReg .x1 (block 0x80000000000000000000000000000001 0) ≠ 0x80000000000000000000000000000000#128 := by decide

/-- ShiftLaws: the greatest count of each clause, and the least total that clears. -/
theorem test_witness_ShiftLaws : 127 < 128 ∧ 0 < 128 ∧ 64 + 63 < 128 ∧ 128 ≤ 64 + 64 ∧ 128 ≤ 0 + 128 := by decide

/-- CompareResults: less, equal and greater, unsigned and signed. -/
theorem test_witness_CompareResults :
    (readReg .x1 (block 7 8)).toNat < (readReg .x2 (block 7 8)).toNat ∧
    (readReg .x1 (block 7 7)).toNat = (readReg .x2 (block 7 7)).toNat ∧
    (readReg .x1 (block 8 7)).toNat > (readReg .x2 (block 8 7)).toNat ∧
    (readReg .x1 (block (-1) 0)).toInt < (readReg .x2 (block (-1) 0)).toInt ∧
    (readReg .x1 (block (-1) (-1))).toInt = (readReg .x2 (block (-1) (-1))).toInt ∧
    (readReg .x1 (block 0 (-1))).toInt > (readReg .x2 (block 0 (-1))).toInt := by decide

/-- ComparatorOrderLaws: a chain of three, unsigned and signed. -/
theorem test_witness_ComparatorOrderLaws : ucmp 1 2 = .lt ∧ ucmp 2 3 = .lt ∧ scmp (-1) 0 = .lt ∧ scmp 0 1 = .lt := by decide

/-- DivideResults, RemainderResults, DivideRemainderResults, DivisionIdentity: divisor 0, and divisor 1 and -1. -/
theorem test_witness_division : readReg .x2 (block 5 0) = 0 ∧ readReg .x2 (block 5 1) ≠ 0 ∧
    readReg .x2 (block 0x80000000000000000000000000000000 (-1)) ≠ 0 ∧ Reg.x4 ≠ Reg.x3 := by decide

/-- RootResults and SquareRootResults: the least valid degree, the degrees and radicands next to the bounds. -/
theorem test_witness_roots : (readReg .x2 (block 5 0)).toNat = 0 ∧ (readReg .x2 (block 5 1)).toNat ≠ 0 ∧
    (readReg .x2 (block 5 0)).toInt ≤ 0 ∧ ¬(readReg .x2 (block 5 1)).toInt ≤ 0 ∧ (readReg .x2 (block 5 (-1))).toInt ≤ 0 ∧
    (readReg .x1 (block (-1) 1)).toInt < 0 ∧ ¬(readReg .x1 (block 0 1)).toInt < 0 := by decide

/-- RootLaws: the bounds of the radicand and of the degree. -/
theorem test_witness_RootLaws : 0 < 2 ^ 128 ∧ 2 ^ 128 - 1 < 2 ^ 128 ∧ 1 ≤ 1 ∧ 0 ≤ 2 ^ 128 - 1 := by decide

/-- The bases of DIGITS, TOSTR and PARSE: 1 and 22 outside, 2 and 21 inside. -/
theorem test_witness_bases : (readReg .x2 (block 5 1)).toNat < 2 ∧ (readReg .x2 (block 5 22)).toNat > 21 ∧
    ¬((readReg .x2 (block 5 2)).toNat < 2 ∨ (readReg .x2 (block 5 2)).toNat > 21) ∧
    ¬((readReg .x2 (block 5 21)).toNat < 2 ∨ (readReg .x2 (block 5 21)).toNat > 21) := by decide

/-- DigitsResults: a digit count that holds the magnitude. -/
theorem test_witness_DigitsResults : 1 ≤ 3 ∧ (readReg .x1 (block 7 2)).toNat < (readReg .x2 (block 7 2)).toNat ^ 3 ∧
    (readReg .x1 (block (-7) 2)).toInt.natAbs < (readReg .x2 (block (-7) 2)).toNat ^ 3 := by decide

/-- ParseResults: a length over 132 and one of 132, a text with no digit below the base, one with, one with a sign. -/
theorem test_witness_ParseResults : (blockText 10 [] 133).strlen.toNat > 132 ∧ ¬(blockText 10 [] 132).strlen.toNat > 132 ∧
    ¬DigitsBelow 10 (afterSign (parsedText (blockText 10 [0x3A] 1))) ∧
    DigitsBelow 10 (afterSign (parsedText (blockText 10 [0x39] 1))) ∧
    hasMinus (parsedText (blockText 10 [0x2D, 0x39] 2)) = true ∧
    DigitsBelow 10 (afterSign (parsedText (blockText 10 [0x2D, 0x39] 2))) := by
  unfold DigitsBelow
  decide

/-- DigitCountIsTextLength and TextRoundTrip: bases 2, 10, 11 and 21; a text with a letter. -/
theorem test_witness_text : 2 ≤ (readReg .x2 (block 5 2)).toNat ∧ (readReg .x2 (block 5 10)).toNat ≤ 10 ∧
    (readReg .x2 (block 10 11)).toNat ≤ 21 ∧ (readReg .x2 (block 10 21)).toNat ≤ 21 ∧
    after (exec (.tostrU .x1 .x2) (block 10 11)) (fun t => decide (0 < t.strlen.toNat ∧ 0x41 ≤ (t.strbuf.read 0).toNat)) =
      some true := by decide

/-- ErrorsWriteOnlyStatus: a command and a step that end with an error. -/
theorem test_witness_ErrorsWriteOnlyStatus : exec (.divU .x3 .x1 .x2) (block 5 0) = .next failed ∧ failed.err ≠ 0#4 ∧
    (flight 0x00000000 0 []).busy = true ∧ (flight 0x00000000 0 []).wait = 0 ∧ (flight 0x00000000 0 []).inReset = false ∧
    step (flight 0x00000000 0 []) = .next { block 50 7 with done := true, err := 6 } :=
  ⟨rfl, by decide, rfl, rfl, rfl, rfl⟩

/-- OnlyCompareWritesCmpres: CMP.U of 8 and 7. -/
theorem test_witness_OnlyCompareWritesCmpres :
    after (exec (.cmpU .x3 .x1 .x2) (block 8 7)) (fun t => decide (t.cmpres ≠ (block 8 7).cmpres)) = some true := by decide

/-- WindowReadsBackWrites: the first and the last offset of each range. -/
theorem test_witness_WindowReadsBackWrites : failed.busy = false ∧ failed.strbuf.wf = true ∧
    (∀ off ∈ [0x000, 0x07C, 0x084, 0x088, 0x08C, 0x0FC, 0x100, 0x180, 0x184, 0x1FC],
      off % 4 = 0 ∧ off < 0x200 ∧ off ≠ 0x080) ∧
    0x07C < 0x080 ∧ 0x180 < 0x184 := by decide

/-- ValueWordsOnTheBus and TextBytesOnTheBus: the last word, bit, text word and byte. -/
theorem test_witness_busWords : 3 < 4 ∧ 31 < 32 ∧ 32 < 33 := by decide

/-- ReservedOffsetsReadZeroIgnoreWrites: the ends of both ranges. -/
theorem test_witness_ReservedOffsets :
    ∀ off ∈ [0x08C, 0x0FC, 0x184, 0x1FC], off % 4 = 0 ∧ ((0x08C ≤ off ∧ off < 0x100) ∨ (0x184 ≤ off ∧ off < 0x200)) := by
  decide

/-- CommandWriteIsAcceptance. -/
theorem test_witness_CommandWriteIsAcceptance : failed.busy = false := rfl

/-- BusyWritesAreIgnored: a write, and a read, with one cycle left. -/
theorem test_witness_BusyWritesAreIgnored (v : Word) :
    let s := flight 0x00008B01 1 [.write (Config.coreBase + 0x1FC) 4 v]
    let u := flight 0x00008B01 1 [.read (Config.coreBase + 0) 4]
    s.busy = true ∧ s.wait ≠ 0 ∧ s.inReset = false ∧ 0x1FC % 4 = 0 ∧ 0x1FC < 0x200 ∧
      s.pending = .write (Config.coreBase + 0x1FC) 4 v :: [] ∧ u.busy = true ∧ u.wait ≠ 0 ∧ u.inReset = false ∧
      u.pending = .read (Config.coreBase + 0) 4 :: [] :=
  ⟨rfl, Nat.one_ne_zero, rfl, rfl, by decide, rfl, rfl, Nat.one_ne_zero, rfl, rfl⟩

/-- OperandsStableWhileBusy: a step that leaves the command in flight. -/
theorem test_witness_OperandsStableWhileBusy : (flight 0x00008B01 1 []).busy = true ∧
    step (flight 0x00008B01 1 []) = .next (flight 0x00008B01 0 []) ∧ (flight 0x00008B01 0 []).busy = true :=
  ⟨rfl, rfl, rfl⟩

/-- RejectedAccessChangesNothing: an 8-bit read at 0x100 and a misaligned 32-bit write at 0x1FF. -/
theorem test_witness_RejectedAccess (v : Word) :
    let s := idleWith [.read (Config.coreBase + 0x100) 1]
    let u := idleWith [.write (Config.coreBase + 0x1FF) 4 v]
    completionDue s = false ∧ s.inReset = false ∧ 0x100 < 0x200 ∧ 1 ≠ 4 ∧ s.pending = .read (Config.coreBase + 0x100) 1 :: [] ∧
      completionDue u = false ∧ u.inReset = false ∧ 0x1FF < 0x200 ∧ 0x1FF % 4 ≠ 0 ∧
      u.pending = .write (Config.coreBase + 0x1FF) 4 v :: [] :=
  ⟨rfl, rfl, by decide, by decide, rfl, rfl, rfl, by decide, by decide, rfl⟩

/-- TornReadWordsAreOldOrNew: RDX x3 while ADD x3, x1, x2 is in flight, and a text read. -/
theorem test_witness_TornRead :
    let s := flight 0x00008B01 1 [.readValue .x3]
    let u := flight 0x00008B01 1 [.readText]
    s.busy = true ∧ s.wait ≠ 0 ∧ s.inReset = false ∧ (∃ post, complete s = .next post) ∧ s.pending = .readValue .x3 :: [] ∧
      u.busy = true ∧ u.wait ≠ 0 ∧ u.inReset = false ∧ (∃ post, complete u = .next post) ∧ u.pending = .readText :: [] :=
  ⟨rfl, by decide, rfl, ⟨_, rfl⟩, rfl, rfl, by decide, rfl, ⟨_, rfl⟩, rfl⟩

/-- Reset asserted over a command in flight, with nothing more to come. -/
def held : State := assertReset (flight 0x00008B01 1 [])

/-- The invariant holds while reset is asserted. -/
theorem test_held_inv : BlockInv held :=
  ⟨rfl, by decide, by decide, by decide, by decide, by decide, fun _ => rfl⟩

/-- ResetAbandonsCommand: reset asserted while BUSY = 1, and a step while it is asserted. -/
theorem test_witness_ResetAbandonsCommand : completionDue (flight 0x00008B01 1 [.assertReset]) = false ∧
    (flight 0x00008B01 1 [.assertReset]).pending = .assertReset :: [] ∧ BlockInv held ∧ held.inReset = true ∧
    step held = .next held :=
  ⟨rfl, rfl, test_held_inv, rfl, rfl⟩

/-- AccessDuringResetRefused: each of the four accesses. -/
theorem test_witness_AccessDuringReset (v : Word) : held.inReset = true ∧ 0x1FF < 0x200 ∧
    (held).pending = [] ∧ ({ held with pending := [.read (Config.coreBase + 0x1FF) 4] } : State).pending =
      .read (Config.coreBase + 0x1FF) 4 :: [] ∧
    ({ held with pending := [.write (Config.coreBase + 0) 4 v] } : State).pending = .write (Config.coreBase + 0) 4 v :: [] ∧
    ({ held with pending := [.readValue .x0] } : State).pending = .readValue .x0 :: [] ∧
    ({ held with pending := [.readText] } : State).pending = .readText :: [] :=
  ⟨rfl, by decide, rfl, rfl, rfl, rfl, rfl⟩

/-- StepKeepsInvariant: a command in flight that completes, one that goes on, a block that is idle after an error, one held in
reset. -/
theorem test_witness_StepKeepsInvariant : BlockInv (flight 0x00000000 0 []) ∧ BlockInv (flight 0x00008B01 1 []) ∧
    BlockInv failed ∧ step (flight 0x00000000 0 []) = .next { block 50 7 with done := true, err := 6 } ∧
    step (flight 0x00008B01 1 []) = .next (flight 0x00008B01 0 []) ∧ step failed = .next failed ∧ BlockInv held ∧
    step held = .next held :=
  ⟨⟨rfl, by decide, by decide, by decide, by decide, by decide, by decide⟩,
    ⟨rfl, by decide, by decide, by decide, by decide, by decide, by decide⟩,
    ⟨rfl, by decide, by decide, by decide, by decide, by decide, by decide⟩, rfl, rfl, rfl, test_held_inv, rfl⟩

/-- AcceptedCommandCompletes: two cycles left, and a host that polls STATUS and writes CMD meanwhile. -/
theorem test_witness_AcceptedCommandCompletes (w : Word) :
    let s := flight 0x00008B01 2 [.read (Config.coreBase + 0x084) 4, .write (Config.coreBase + 0x080) 4 w, .readText]
    s.busy = true ∧ s.inReset = false ∧ ∀ e ∈ s.pending, Harmless e := by
  refine ⟨rfl, rfl, fun e he => ?_⟩
  simp only [flight, List.mem_cons, List.not_mem_nil, or_false] at he
  rcases he with rfl | rfl | rfl
  · exact ⟨0x084, by decide, rfl⟩
  · exact ⟨0x080, by decide, rfl⟩
  · exact trivial

/-- HostWriteRunsCommand: PARSE written to CMD of an idle block. -/
theorem test_witness_HostWriteRunsCommand : (idleWith [execWrite (.parse .x3 .x2)]).busy = false ∧
    (idleWith [execWrite (.parse .x3 .x2)]).inReset = false ∧
    (idleWith [execWrite (.parse .x3 .x2)]).pending = [execWrite (.parse .x3 .x2)] :=
  ⟨rfl, rfl, rfl⟩

/-- HostLoadsAndReadsValue and HostLoadsText: LDX x7, RDX x7, and LDS of texts of 0, 3 and 132 bytes. -/
theorem test_witness_hostMacros (bs : List Byte) (h : bs.length ≤ 132) : (idleWith (ldx .x7 5 ++ [])).busy = false ∧
    (idleWith (ldx .x7 5 ++ [])).inReset = false ∧ (idleWith (ldx .x7 5 ++ [])).pending = ldx .x7 5 ++ [] ∧
    (idleWith (rdx .x7 ++ [])).pending = rdx .x7 ++ [] ∧ (idleWith (lds bs)).pending = lds bs ∧ bs.length ≤ 132 ∧
    (idleWith (lds bs)).strbuf.wf = true ∧ (idleWith (lds bs)).busy = false ∧ (idleWith (lds bs)).inReset = false ∧
    ([] : List Byte).length ≤ 132 ∧ (List.replicate 132 0x31#8).length ≤ 132 :=
  ⟨rfl, rfl, rfl, rfl, rfl, h, rfl, rfl, rfl, by simp, by simp⟩


end Sys2Proof.Tests
end

section
/-! SUPPORT. Places of the register window, words of a value register, and reads after writes (R34, R40, R41, R64). -/

namespace Sys2Proof.Machine

/-! ### Places (R40) -/

theorem Reg.number_ofNumber (n : Nat) (h : n < 8) : (Reg.ofNumber n).number = n := by
  rw [Reg.ofNumber, Reg.number_ofBits, BitVec.toNat_ofNat, Nat.mod_eq_of_lt h]

/-- The one aligned offset of a place; the reserved offsets share a place and have none. -/
def WindowReg.offset : WindowReg → Nat
  | .value r j => 0x10 * r.number + 4 * j
  | .cmd => 0x080
  | .status => 0x084
  | .strlen => 0x088
  | .text k => 0x100 + 4 * k
  | .reserved => 0

theorem windowReg_reserved (off : Nat) (h : (0x08C ≤ off ∧ off < 0x100) ∨ (0x184 ≤ off ∧ off < 0x200)) :
    windowReg off = .reserved := by
  rw [windowReg, if_neg (by omega), if_neg (by omega), if_neg (by omega), if_neg (by omega), if_neg (by omega)]

theorem windowReg_of_text (off : Nat) (hlo : 0x100 ≤ off) (hhi : off < 0x184) :
    windowReg off = .text ((off - 0x100) / 4) := by
  rw [windowReg, if_neg (by omega), if_neg (by omega), if_neg (by omega), if_neg (by omega), if_pos ⟨hlo, hhi⟩]

/-- An aligned offset that is not reserved is recovered from its place. -/
theorem windowReg_offset (off : Nat) (ha : off % 4 = 0) (hr : windowReg off ≠ .reserved) : (windowReg off).offset = off := by
  unfold windowReg at hr ⊢
  split_ifs at hr ⊢ with hvalue hcmd hstatus hstrlen htext
  · have := Reg.number_ofNumber (off / 0x10) (by omega)
    simp only [WindowReg.offset, this]
    omega
  · exact hcmd.symm
  · exact hstatus.symm
  · exact hstrlen.symm
  · simp only [WindowReg.offset]
    omega
  · exact absurd rfl hr

/-- Two aligned offsets of one place are one offset, or both reserved. -/
theorem windowReg_inj (off off' : Nat) (ha : off % 4 = 0) (ha' : off' % 4 = 0) (h : windowReg off' = windowReg off) :
    off' = off ∨ windowReg off = .reserved := by
  by_cases hr : windowReg off = .reserved
  · exact .inr hr
  · left
    rw [← windowReg_offset off ha hr, ← h, windowReg_offset off' ha' (h ▸ hr)]

theorem windowReg_value_lt (off : Nat) (r : Reg) (j : Nat) (h : windowReg off = .value r j) : j < 4 := by
  unfold windowReg at h
  split_ifs at h
  cases h
  omega

/-! ### Words of a value (R64) -/

theorem word_ofWords_of_length (ws : List Word) (hl : ws.length = 4) (k : Nat) (hk : k < 4) :
    word (ofWords ws) k = ws.getD k 0 := by
  obtain ⟨w0, w1, w2, w3, rfl⟩ := List.length_eq_four.mp hl
  exact word_ofWords w0 w1 w2 w3 k hk

theorem getD_wordsOf (v : Value) (k : Nat) (hk : k < 4) : (wordsOf v).getD k 0 = word v k := by
  interval_cases k <;> rfl

theorem word_setWord (v : Value) (w : Word) (j k : Nat) (hj : j < 4) (hk : k < 4) :
    word (setWord v j w) k = if k = j then w else word v k := by
  rw [setWord, word_ofWords_of_length _ (by simp) k hk, List.getD_eq_getElem?_getD, List.getElem?_set]
  by_cases hkj : k = j
  · simp [hkj, hj]
  · rw [if_neg hkj, if_neg (Ne.symm hkj), ← List.getD_eq_getElem?_getD, getD_wordsOf v k hk]

/-! ### Reads and writes by place -/

section place

variable {off : Nat} {s : State}

theorem readWord_value {r : Reg} {j : Nat} (h : windowReg off = .value r j) : readWord off s = word (readReg r s) j := by
  simp only [readWord, h]

theorem readWord_strlen (h : windowReg off = .strlen) : readWord off s = 0#24 ++ s.strlen := by
  simp only [readWord, h]

theorem readWord_text {k : Nat} (h : windowReg off = .text k) : readWord off s = s.strbuf.readWord k := by
  simp only [readWord, h]

theorem readWord_reserved (h : windowReg off = .reserved) : readWord off s = 0#32 := by
  simp only [readWord, h]

theorem writeWord_value {r : Reg} {j : Nat} (v : Word) (hi : s.busy = false) (h : windowReg off = .value r j) :
    writeWord off v s = writeReg r (setWord (readReg r s) j v) s := by
  simp only [writeWord_idle off v s hi, h]

theorem writeWord_cmd (v : Word) (hi : s.busy = false) (h : windowReg off = .cmd) : writeWord off v s = accept v s := by
  simp only [writeWord_idle off v s hi, h]

theorem writeWord_strlen (v : Word) (hi : s.busy = false) (h : windowReg off = .strlen) :
    writeWord off v s = { s with strlen := v.extractLsb' 0 8 } := by
  simp only [writeWord_idle off v s hi, h]

theorem writeWord_text {k : Nat} (v : Word) (hi : s.busy = false) (h : windowReg off = .text k) :
    writeWord off v s = { s with strbuf := s.strbuf.writeWord k v } := by
  simp only [writeWord_idle off v s hi, h]

/-- STATUS and the reserved offsets ignore every write, whatever BUSY is (R26, R34, R41). -/
theorem writeWord_ignored (v : Word) (h : windowReg off = .status ∨ windowReg off = .reserved) :
    writeWord off v s = s := by
  cases hb : s.busy with
  | true => exact writeWord_busy off v s hb
  | false => rcases h with h | h <;> simp only [writeWord_idle off v s hb, h]

theorem readWord_value_same (r : Reg) (j : Nat) (v : Word) (h : windowReg off = .value r j) :
    readWord off (writeReg r (setWord (readReg r s) j v) s) = v := by
  have hj := windowReg_value_lt off r j h
  rw [readWord_value h, readReg_writeReg_same, word_setWord _ _ _ _ hj hj, if_pos rfl]

theorem readWord_value_ne (r : Reg) (j : Nat) (v : Word) (hj : j < 4) (hne : windowReg off ≠ .value r j) :
    readWord off (writeReg r (setWord (readReg r s) j v) s) = readWord off s := by
  cases h : windowReg off with
  | value q k =>
    rw [readWord_value h, readWord_value h]
    by_cases hq : q = r
    · subst hq
      have hkj : k ≠ j := fun hkj => hne (by rw [h, hkj])
      rw [readReg_writeReg_same, word_setWord _ _ _ _ hj (windowReg_value_lt off q k h), if_neg hkj]
    · rw [readReg_writeReg_ne _ _ _ _ hq]
  | cmd | status | strlen | text | reserved => simp only [readWord, h] <;> rfl

theorem readWord_strlen_ne (b : Byte) (hne : windowReg off ≠ .strlen) :
    readWord off { s with strlen := b } = readWord off s := by
  cases h : windowReg off with
  | strlen => exact absurd h hne
  | value | cmd | status | text | reserved => simp only [readWord, h] <;> rfl

theorem readWord_text_same (k : Nat) (v : Word) (hwf : s.strbuf.wf = true) (h : windowReg off = .text k) :
    readWord off { s with strbuf := s.strbuf.writeWord k v } = v := by
  obtain ⟨hk, -, -⟩ := windowReg_text off k h
  rw [readWord_text h, Memory.readWord_writeWord _ _ _ _ hwf (by unfold strbufSize; omega), if_pos rfl]

theorem readWord_text_ne (k : Nat) (v : Word) (hwf : s.strbuf.wf = true) (hk : k < 33) (hne : windowReg off ≠ .text k) :
    readWord off { s with strbuf := s.strbuf.writeWord k v } = readWord off s := by
  cases h : windowReg off with
  | text j =>
    have hjk : j ≠ k := fun hjk => hne (by rw [h, hjk])
    rw [readWord_text h, readWord_text h, Memory.readWord_writeWord _ _ _ _ hwf (by unfold strbufSize; omega), if_neg hjk]
  | value | cmd | status | strlen | reserved => simp only [readWord, h] <;> rfl

end place

/-- Every write keeps STRBUF canonical, busy or idle. -/
theorem writeWord_text_wf (off : Nat) (v : Word) (s : State) (hwf : s.strbuf.wf = true) :
    (writeWord off v s).strbuf.wf = true := by
  cases hb : s.busy with
  | true => rwa [writeWord_busy off v s hb]
  | false =>
    cases h : windowReg off with
    | value r j => rwa [writeWord_value v hb h]
    | cmd => rwa [writeWord_cmd v hb h]
    | strlen => rwa [writeWord_strlen v hb h]
    | status => rwa [writeWord_ignored v (.inl h)]
    | reserved => rwa [writeWord_ignored v (.inr h)]
    | text k =>
      obtain ⟨hk, -, -⟩ := windowReg_text off k h
      rw [writeWord_text v hb h]
      exact Memory.wf_writeWord _ _ _ hwf (by unfold strbufSize; omega)

/-- A write other than to CMD leaves every other place reading as before. -/
theorem readWord_writeWord_ne (off off' : Nat) (v : Word) (s : State) (hb : s.busy = false) (hwf : s.strbuf.wf = true)
    (hcmd : windowReg off ≠ .cmd) (hne : windowReg off' = windowReg off → windowReg off = .reserved) :
    readWord off' (writeWord off v s) = readWord off' s := by
  cases h : windowReg off with
  | cmd => exact absurd h hcmd
  | status => rw [writeWord_ignored v (.inl h)]
  | reserved => rw [writeWord_ignored v (.inr h)]
  | value r j =>
    rw [writeWord_value v hb h]
    exact readWord_value_ne r j v (windowReg_value_lt off r j h) fun h' => by simp [h, h'] at hne
  | strlen =>
    rw [writeWord_strlen v hb h]
    exact readWord_strlen_ne _ fun h' => by simp [h, h'] at hne
  | text k =>
    obtain ⟨hk, -, -⟩ := windowReg_text off k h
    rw [writeWord_text v hb h]
    exact readWord_text_ne k v hwf hk fun h' => by simp [h, h'] at hne

end Sys2Proof.Machine
end

section
/-! SUPPORT. Concatenated bit fields as numbers: the word of STRLEN (R35) and the bits of STATUS (R26). -/

namespace Sys2Proof.Machine

theorem append_toNat {m n : Nat} (a : BitVec m) (b : BitVec n) : (a ++ b).toNat = a.toNat * 2 ^ n + b.toNat := by
  rw [BitVec.toNat_append, ← Nat.shiftLeft_add_eq_or_of_lt b.isLt, Nat.shiftLeft_eq]

theorem zeroExtend_low_byte (v : Word) : (0#24 ++ v.extractLsb' 0 8 : BitVec (24 + 8)) = v &&& 0x000000FF#32 := by
  have hmask : v.toNat &&& 255 = v.toNat % 2 ^ 8 := Nat.and_two_pow_sub_one_eq_mod v.toNat 8
  apply BitVec.eq_of_toNat_eq
  rw [append_toNat, field_toNat, BitVec.toNat_and]
  simp [hmask]

/-- The fields of STATUS do not overlap. -/
theorem statusWord_toNat (s : State) :
    (statusWord s).toNat = s.busy.toNat + 2 * s.done.toNat + 16 * s.cmpres.toNat + 256 * s.err.toNat := by
  unfold statusWord
  repeat rw [append_toNat]
  simp only [BitVec.toNat_ofBool, BitVec.toNat_ofNat]
  omega

theorem statusWord_field (s : State) (lo n : Nat) (b : BitVec n)
    (h : (s.busy.toNat + 2 * s.done.toNat + 16 * s.cmpres.toNat + 256 * s.err.toNat) / 2 ^ lo % 2 ^ n = b.toNat) :
    (statusWord s).extractLsb' lo n = b := by
  apply BitVec.eq_of_toNat_eq
  rw [field_toNat, statusWord_toNat, h]

end Sys2Proof.Machine
end

section
/-! SUPPORT. The ways a command can complete, as next states (R33, R222). -/

namespace Sys2Proof.Machine

/-- How command `i` can complete from `s`: an error, which writes the status alone; register results; a comparison, which
writes CMPRES too and comes from CMP.U and CMP.S alone (R29); or a text (R186). -/
inductive Completes (i : Instr) (s : State) : State → Prop where
  | error (e : ErrorCode) : Completes i s (raiseError e s)
  | regs (f : RegFile) : Completes i s (retire { s with x := f })
  | compare (rd rs1 rs2 : Reg) (o : Ordering) (hi : i = .cmpU rd rs1 rs2 ∨ i = .cmpS rd rs1 rs2) :
      Completes i s (retire (writeReg rd (compareValue o) (setCmpres (cmpresOf o) s)))
  | text (bs : List Byte) :
      Completes i s (retire { s with strlen := BitVec.ofNat 8 bs.length, strbuf := Memory.ofText bs })

section shapes

variable (i : Instr) (s : State)

theorem completeReg_completes (rd : Reg) (v : Value) : ∃ t, completeReg rd v s = .next t ∧ Completes i s t :=
  ⟨_, rfl, .regs (s.x.set rd v)⟩

theorem completeRule_completes (rd : Reg) (r : Except ErrorCode Value) :
    ∃ t, completeRule rd r s = .next t ∧ Completes i s t := by
  cases r with
  | ok v => exact completeReg_completes i s rd v
  | error e => exact ⟨_, rfl, .error e⟩

theorem completePair_completes (rd rd2 : Reg) (r : Except ErrorCode (Value × Value)) :
    ∃ t, completePair rd rd2 r s = .next t ∧ Completes i s t := by
  cases r with
  | ok qr => exact ⟨_, rfl, .regs ((s.x.set rd2 qr.2).set rd qr.1)⟩
  | error e => exact ⟨_, rfl, .error e⟩

theorem completeText_completes (r : Except ErrorCode (List Byte)) :
    ∃ t, completeText r s = .next t ∧ Completes i s t := by
  cases r with
  | ok bs => exact ⟨_, rfl, .text bs⟩
  | error e => exact ⟨_, rfl, .error e⟩

/-- Every command completes, from every state, in one of the four ways. -/
theorem exec_completes : ∃ t, exec i s = .next t ∧ Completes i s t := by
  cases i
  case add | sub | neg | not | and | or | xor | sll | srl | mul | pow | ext64U | ext64S | cminU | cminS | cmaxU | cmaxS =>
    exact completeReg_completes _ _ _ _
  case divU | divS | remU | remS | rootU | rootS | sqrtS | digitsU | digitsS | parse =>
    exact completeRule_completes _ _ _ _
  case sqrtU rd rs1 => exact completeRule_completes _ s rd (sqrtRule false (operandA rs1 s))
  case divremU | divremS => exact completePair_completes _ _ _ _ _
  case tostrU | tostrS => exact completeText_completes _ _ _
  case cmpU rd rs1 rs2 => exact ⟨_, rfl, .compare rd rs1 rs2 _ (.inl rfl)⟩
  case cmpS rd rs1 rs2 => exact ⟨_, rfl, .compare rd rs1 rs2 _ (.inr rfl)⟩

end shapes

section completes

variable {i : Instr} {s t : State}

theorem completes_of_exec (h : exec i s = .next t) : Completes i s t := by
  obtain ⟨t', ht', hc⟩ := exec_completes i s
  rw [h] at ht'
  cases ht'
  exact hc

theorem Completes.busy (h : Completes i s t) : t.busy = false := by
  cases h <;> rfl

theorem complete_busy (h : complete s = .next t) : t.busy = false := by
  rcases complete_cases s with ⟨i, -, hc⟩ | ⟨e, -, hc⟩
  · exact (completes_of_exec (hc ▸ h)).busy
  · rw [hc] at h
    cases h
    rfl

end completes

theorem ErrorCode.code_le (e : ErrorCode) : e.code.toNat ≤ 6 := by cases e <;> decide

theorem cmpresOf_ne_three (o : Ordering) : cmpresOf o ≠ 3#2 := by cases o <;> decide

end Sys2Proof.Machine
end

section
/-! SUPPORT. What the next step is, case by case (R33, R71), and runs of several steps. -/

namespace Sys2Proof.Machine

theorem windowOffset_coreBase_add (off : Nat) (h : off < 0x200) : windowOffset (Config.coreBase + off) = some off :=
  (windowOffset_eq_some _ _).mpr ⟨rfl, h⟩

theorem legalAccess_word (off : Nat) (h : off % 4 = 0) : legalAccess off 4 = true := by
  simp [legalAccess, h]

section step

variable {s : State}

theorem tick_of_busy (h : s.busy = true) : tick s = { s with wait := s.wait - 1 } := by
  simp only [tick, h, if_true]

theorem tick_of_idle (h : s.busy = false) : tick s = s := by
  simp only [tick, h, Bool.false_eq_true, if_false]

theorem completionDue_of_idle (h : s.busy = false) : completionDue s = false := by
  simp [completionDue, h]

theorem completionDue_of_wait (h : s.wait ≠ 0) : completionDue s = false := by
  simp [completionDue, h]

/-- The word the assembler writes for a command is decoded as that command: it packs the fields of the command's table row
(R80, R93). -/
theorem decodeWord_encode (i : Instr) : decodeWord (encode i) = .ok i := by
  cases i <;> exact decode_pack _ _ _ _ _ _ (by decide)

theorem complete_of_decode {i : Instr} (h : decodeWord s.cmd = .ok i) : complete s = exec i s := by
  simp only [complete, fetchCommand, h]

theorem step_of_due (hb : s.busy = true) (hw : s.wait = 0) (hr : s.inReset = false) : step s = complete s := by
  simp only [step, nextEvent, (completionDue_iff s).mpr ⟨hb, hw, hr⟩, if_true]

theorem step_of_quiet (hd : completionDue s = false) (hp : s.pending = []) : step s = .next (tick s) := by
  simp only [step, nextEvent, hd, Bool.false_eq_true, if_false, serveHost, tick_pending, hp]

/-- The state in which the host's next event is served: a cycle of the latency has passed, `rest` is still to come. -/
def atEvent (s : State) (rest : List HostEvent) : State := { tick s with pending := rest }

@[simp] theorem atEvent_busy (s : State) (rest : List HostEvent) : (atEvent s rest).busy = s.busy := tick_busy s

@[simp] theorem atEvent_inReset (s : State) (rest : List HostEvent) : (atEvent s rest).inReset = s.inReset := tick_inReset s

theorem atEvent_of_busy (h : s.busy = true) (rest : List HostEvent) :
    atEvent s rest = { s with wait := s.wait - 1, pending := rest } := by
  rw [atEvent, tick_of_busy h]

theorem atEvent_of_idle (h : s.busy = false) (rest : List HostEvent) : atEvent s rest = { s with pending := rest } := by
  rw [atEvent, tick_of_idle h]

theorem step_of_event {e : HostEvent} {rest : List HostEvent} (hd : completionDue s = false) (hp : s.pending = e :: rest) :
    step s = serveEvent e (atEvent s rest) := by
  simp only [step, nextEvent, hd, Bool.false_eq_true, if_false, serveHost, tick_pending, hp, atEvent]

/-- An access of the window while reset is not asserted is served (R60). -/
theorem atWindow_coreBase_add {off : Nat} (f : Nat → State) (hr : s.inReset = false) (hoff : off < 0x200) :
    atWindow (Config.coreBase + off) f s = .next (f off) := by
  simp only [atWindow, windowOffset_coreBase_add off hoff, hr, Bool.false_eq_true, if_false]

section access

variable {off : Nat} {rest : List HostEvent} (hd : completionDue s = false) (hr : s.inReset = false) (ha : off % 4 = 0)
  (hoff : off < 0x200)
include hd hr ha hoff

/-- The step that serves a 32-bit aligned write of the host (R62). -/
theorem step_write {v : Word} (hp : s.pending = .write (Config.coreBase + off) 4 v :: rest) :
    step s = .next (reply .written (writeWord off v (atEvent s rest))) := by
  rw [step_of_event hd hp, serveEvent, atWindow_coreBase_add _ ((atEvent_inReset s rest).trans hr) hoff, serveWrite,
    legalAccess_word off ha, if_pos rfl]

/-- The step that serves a 32-bit aligned read of the host (R62). -/
theorem step_read (hp : s.pending = .read (Config.coreBase + off) 4 :: rest) :
    step s = .next (reply (.data (readWord off (atEvent s rest))) (atEvent s rest)) := by
  rw [step_of_event hd hp, serveEvent, atWindow_coreBase_add _ ((atEvent_inReset s rest).trans hr) hoff, serveRead,
    legalAccess_word off ha, if_pos rfl]

end access

/-- An idle block after the host's write of `w` to CMD has been served, `rest` being still to come (R32). -/
def accepted (w : Word) (rest : List HostEvent) (s : State) : State := reply .written (accept w { s with pending := rest })

theorem step_accept {w : Word} {rest : List HostEvent} (hb : s.busy = false) (hr : s.inReset = false)
    (hp : s.pending = memWrite 0x080 w :: rest) : step s = .next (accepted w rest s) := by
  have hidle : (atEvent s rest).busy = false := (atEvent_busy s rest).trans hb
  rw [step_write (completionDue_of_idle hb) hr (by decide) (by decide) hp, writeWord_cmd (off := 0x080) w hidle rfl,
    atEvent_of_idle hb, accepted]

/-- What the host reads at an offset depends on the registers of the block alone. -/
theorem readWord_hostSide (off : Nat) (n : Nat) (es : List HostEvent) :
    readWord off { s with wait := n, pending := es } = readWord off s := rfl

end step

theorem run_succ {s s' : State} (k : Nat) (h : step s = .next s') :
    Host.Core.run Sys2Proof.core (k + 1) s = Host.Core.run Sys2Proof.core k s' := by
  have h' : Sys2Proof.core.step s = .next s' := h
  simp only [Host.Core.run, h']

/-- A command in flight with `n` cycles left, of which the host asks nothing, completes in `n + 1` steps (R33). -/
theorem run_latency (n : Nat) (s t : State) (hb : s.busy = true) (hr : s.inReset = false) (hp : s.pending = [])
    (hw : s.wait = n) (hc : complete { s with wait := 0 } = .next t) :
    Host.Core.run Sys2Proof.core (n + 1) s = .next t := by
  induction n generalizing s with
  | zero =>
    have hs : ({ s with wait := 0 } : State) = s := by rw [← hw]
    have hstep : step s = .next t := by rw [step_of_due hb hw hr, ← hs, hc]
    exact run_succ 0 hstep
  | succ n ih =>
    have htick : tick s = { s with wait := n } := by rw [tick_of_busy hb, hw, Nat.add_sub_cancel]
    have hstep := step_of_quiet (completionDue_of_wait (s := s) (by omega)) hp
    rw [run_succ (n + 1) hstep, htick]
    exact ih { s with wait := n } hb hr hp rfl hc

end Sys2Proof.Machine
end

section
/-! SUPPORT. What the host cannot change while a command is in flight (R34). -/

namespace Sys2Proof.Machine

/-- What stays as it is from acceptance to completion: the operands, CMD and the rest of STATUS (R32, R34). -/
def CommandKept (s t : State) : Prop :=
  t.x = s.x ∧ t.cmd = s.cmd ∧ t.strlen = s.strlen ∧ t.strbuf = s.strbuf ∧ t.cmpres = s.cmpres ∧ t.done = s.done ∧
    t.err = s.err

theorem commandKept_of_hostSide (s : State) (es : List HostEvent) (rs : List BusReply) (n : Nat) :
    CommandKept s { s with pending := es, replies := rs, freeIndex := n } :=
  ⟨rfl, rfl, rfl, rfl, rfl, rfl, rfl⟩

/-- No host event but a reset touches a command in flight. -/
theorem serveEvent_commandKept {e : HostEvent} {s t : State} (hb : s.busy = true) (h : serveEvent e s = .next t)
    (ht : t.busy = true) : CommandKept s t := by
  rcases serveEvent_cases e s t h with ⟨addr, bytes, off, -, -, -, -, rfl⟩ | ⟨addr, bytes, v, off, -, -, -, -, rfl⟩ |
    ⟨y, -, rfl⟩ | ⟨-, rfl⟩ | ⟨-, rfl⟩ | ⟨-, rfl⟩
  · rcases serveRead_cases addr off bytes s with ⟨-, h⟩ | ⟨-, h⟩ <;> exact h ▸ commandKept_of_hostSide s _ _ _
  · rcases serveWrite_cases addr off bytes v s with ⟨-, h⟩ | ⟨-, h⟩
    · rw [h, writeWord_busy off v s hb]
      exact commandKept_of_hostSide s _ _ _
    · exact h ▸ commandKept_of_hostSide s _ _ _
  · exact commandKept_of_hostSide s _ _ _
  · exact commandKept_of_hostSide t _ _ _
  · simp at ht
  · exact ⟨rfl, rfl, rfl, rfl, rfl, rfl, rfl⟩

end Sys2Proof.Machine
end

section
/-! SUPPORT. What keeps the invariant of the block, operation by operation (R28, R29, R30, R220, R250). -/

namespace Sys2Proof.Machine

theorem resetRegisters_atResetValues (s : State) : AtResetValues (resetRegisters s) :=
  ⟨readReg_resetRegisters s, rfl, rfl, rfl, rfl, rfl, rfl, fun _ => rfl,
    show statusWord State.reset = 0#32 by decide⟩

theorem assertReset_inv (s : State) : BlockInv (assertReset s) :=
  ⟨rfl, by simp, by simp, by simp, by simp, by simp, fun _ => rfl⟩

/-- A completion: whatever it wrote, STRBUF must be canonical, CMPRES not 3 and the code listed. -/
theorem finish_inv (c : BitVec 4) (s : State) (htext : s.strbuf.wf = true) (hcmpres : s.cmpres ≠ 3#2) (hw : s.wait = 0)
    (hr : s.inReset = false) (hc : c.toNat ≤ 6) : BlockInv (finish c s) :=
  ⟨htext, hcmpres, hc, by simp, fun _ => hw, by simp, by simp [hr]⟩

theorem Completes.inv {i : Instr} {s t : State} (h : Completes i s t) (hs : BlockInv s) (hw : s.wait = 0)
    (hr : s.inReset = false) : BlockInv t := by
  cases h with
  | error e => exact finish_inv e.code s hs.text hs.cmpres hw hr e.code_le
  | regs f => exact finish_inv _ _ hs.text hs.cmpres hw hr (by decide)
  | compare rd rs1 rs2 o => exact finish_inv _ _ hs.text (cmpresOf_ne_three o) hw hr (by decide)
  | text bs => exact finish_inv _ _ (Memory.wf_ofText bs) hs.cmpres hw hr (by decide)

section kept

variable {s : State} (hs : BlockInv s)
include hs

/-- The invariant does not speak of the host's side. -/
theorem BlockInv.hostSide (es : List HostEvent) (rs : List BusReply) (n : Nat) :
    BlockInv { s with pending := es, replies := rs, freeIndex := n } :=
  ⟨hs.text, hs.cmpres, hs.err, hs.inFlight, hs.noneInFlight, hs.beforeAny,
    fun hr => congrArg (fun u : State => { u with pending := es, replies := rs, freeIndex := n }) (hs.held hr)⟩

/-- While reset is not asserted the operands may hold anything, STRBUF in canonical form. -/
theorem BlockInv.operands (hr : s.inReset = false) (f : RegFile) (n : Byte) (m : Memory) (hm : m.wf = true) :
    BlockInv { s with x := f, strlen := n, strbuf := m } :=
  ⟨hm, hs.cmpres, hs.err, hs.inFlight, hs.noneInFlight, hs.beforeAny, by simp [hr]⟩

theorem BlockInv.accept (w : Word) (hr : s.inReset = false) : BlockInv (accept w s) :=
  ⟨hs.text, hs.cmpres, by simp, by simp, by simp, by simp, by simp [hr]⟩

theorem BlockInv.releaseReset : BlockInv (releaseReset s) :=
  ⟨hs.text, hs.cmpres, hs.err, hs.inFlight, hs.noneInFlight, hs.beforeAny, by simp⟩

/-- A command is in flight only while reset is not asserted. -/
theorem BlockInv.inReset_of_busy (hb : s.busy = true) : s.inReset = false := by
  by_contra hr
  have hidle := congrArg State.busy (hs.held (by simpa using hr))
  simp [hb] at hidle

theorem BlockInv.tick : BlockInv (tick s) := by
  cases hb : s.busy with
  | false => rwa [tick_of_idle hb]
  | true =>
    have hr := hs.inReset_of_busy hb
    rw [tick_of_busy hb]
    exact ⟨hs.text, hs.cmpres, hs.err, hs.inFlight, by simp [hb], hs.beforeAny, by simp [hr]⟩

theorem BlockInv.writeWord (off : Nat) (v : Word) (hr : s.inReset = false) : BlockInv (writeWord off v s) := by
  have hwf := writeWord_text_wf off v s hs.text
  cases hb : s.busy with
  | true => rwa [writeWord_busy off v s hb]
  | false =>
    cases h : windowReg off with
    | cmd => rw [writeWord_cmd v hb h]; exact hs.accept v hr
    | status => rwa [writeWord_ignored v (.inl h)]
    | reserved => rwa [writeWord_ignored v (.inr h)]
    | value r j => rw [writeWord_value v hb h]; exact hs.operands hr _ _ _ hs.text
    | strlen => rw [writeWord_strlen v hb h]; exact hs.operands hr _ _ _ hs.text
    | text k => rw [writeWord_text v hb h] at hwf ⊢; exact hs.operands hr _ _ _ hwf

theorem BlockInv.reply (r : BusReply) : BlockInv (reply r s) := hs.hostSide _ _ _

theorem BlockInv.serveEvent {e : HostEvent} {t : State} (h : serveEvent e s = .next t) : BlockInv t := by
  rcases serveEvent_cases e s t h with ⟨addr, bytes, off, -, -, -, -, rfl⟩ | ⟨addr, bytes, v, off, -, -, -, hr, rfl⟩ |
    ⟨y, -, rfl⟩ | ⟨-, rfl⟩ | ⟨-, rfl⟩ | ⟨-, rfl⟩
  · rcases serveRead_cases addr off bytes s with ⟨-, h⟩ | ⟨-, h⟩ <;> exact h ▸ hs.reply _
  · rcases serveWrite_cases addr off bytes v s with ⟨-, h⟩ | ⟨-, h⟩
    · exact h ▸ (hs.writeWord off v hr).reply _
    · exact h ▸ hs.reply _
  · exact hs.hostSide _ _ _
  · exact hs
  · exact assertReset_inv s
  · exact hs.releaseReset

theorem BlockInv.complete {t : State} (hw : s.wait = 0) (hr : s.inReset = false) (h : complete s = .next t) :
    BlockInv t := by
  rcases complete_cases s with ⟨i, -, hc⟩ | ⟨e, -, hc⟩ <;> rw [hc] at h
  · exact (completes_of_exec h).inv hs hw hr
  · cases h
    exact finish_inv _ s hs.text hs.cmpres hw hr (by decide)

end kept

end Sys2Proof.Machine
end

section
/-! The statements of 10_state.md. -/

namespace Sys2Proof.Machine

/-! ### Whole-machine statements -/

/-- Settles O49, by the two things a step can do: complete the command in flight, or serve the host. -/
theorem stepKeepsInvariant : Obligations.StepKeepsInvariant := by
  intro s t hs h
  rcases step_cases s t h with ⟨hd, hc⟩ | ⟨-, -, rfl⟩ | ⟨-, e, rest, -, he⟩
  · obtain ⟨-, hw, hr⟩ := (completionDue_iff s).mp hd
    exact hs.complete hw hr hc
  · exact hs.tick
  · exact (hs.tick.hostSide rest _ _).serveEvent he

/-- Settles O48: the state right after reset is the one that asserting and releasing the reset input leaves (R42, R252). -/
theorem invariantAtReset : Obligations.InvariantAtReset :=
  (assertReset_inv State.reset).releaseReset

/-- Settles O45. -/
theorem resetStateValues : Obligations.ResetStateValues :=
  ⟨resetRegisters_atResetValues State.reset, rfl⟩

/-! ### Commands -/

/-- Settles O6. -/
theorem stepRunsDecodedCommand : Obligations.StepRunsDecodedCommand := by
  intro s i hb hw hr hi _
  rw [step_of_due hb hw hr, complete_of_decode hi]

/-- Settles O32, by the four ways a command can complete. -/
theorem onlyCompareWritesCmpres : Obligations.OnlyCompareWritesCmpres := by
  intro i s t h hne
  cases completes_of_exec h with
  | error | regs | text => exact absurd rfl hne
  | compare rd rs1 rs2 o hi => exact ⟨cmpresOf_ne_three o, rd, rs1, rs2, hi⟩

/-- Settles O51: one step of acceptance, the latency, and the completion. -/
theorem hostWriteRunsCommand : Obligations.HostWriteRunsCommand := by
  intro s i hb hr hp
  obtain ⟨t, ht, -⟩ := exec_completes i { accepted (encode i) [] s with wait := 0 }
  refine ⟨t, _, ?_, ht, rfl, rfl, rfl, rfl, rfl⟩
  rw [run_succ _ (step_accept hb hr hp)]
  refine run_latency _ _ t rfl hr rfl rfl ?_
  rw [← ht]
  exact complete_of_decode (decodeWord_encode i)

/-- Settles O40: the step is no completion, since that clears BUSY. -/
theorem operandsStableWhileBusy : Obligations.OperandsStableWhileBusy := by
  intro s t hb h ht
  rcases step_cases s t h with ⟨-, hc⟩ | ⟨-, -, rfl⟩ | ⟨-, e, rest, -, he⟩
  · rw [complete_busy hc] at ht
    cases ht
  · rw [tick_of_busy hb]
    exact ⟨rfl, rfl, rfl, rfl, rfl, rfl, rfl⟩
  · have hkept := serveEvent_commandKept (s := atEvent s rest) ((atEvent_busy s rest).trans hb) he ht
    rwa [atEvent_of_busy hb] at hkept

/-! ### The register window -/

/-- Settles O34, by the place that the offset names. -/
theorem windowReadsBackWrites : Obligations.WindowReadsBackWrites := by
  intro s off v hb hwf ha hlt hoff
  have hcmd : windowReg off ≠ .cmd := fun h => by
    have := windowReg_offset off ha (by simp [h])
    simp only [h, WindowReg.offset] at this
    omega
  refine ⟨?_, ?_, fun off' ha' _ hne => ?_, writeWord_text_wf off v s hwf⟩
  · rintro (hvalue | ⟨hlo, hhi⟩)
    · have h : windowReg off = .value _ _ := if_pos hvalue
      rw [writeWord_value v hb h, readWord_value_same _ _ v h]
    · have h := windowReg_of_text off hlo hhi
      rw [writeWord_text v hb h, readWord_text_same _ v hwf h]
  · rintro rfl
    rw [writeWord_strlen v hb rfl, readWord_strlen rfl]
    exact zeroExtend_low_byte v
  · refine readWord_writeWord_ne off off' v s hb hwf hcmd fun h => ?_
    exact (windowReg_inj off off' ha ha' h).resolve_left hne

/-- Settles O39: an access that is served while BUSY = 1. -/
theorem busyWritesAreIgnored : Obligations.BusyWritesAreIgnored := by
  intro s off v rest hb hw hr ha hoff
  have hd := completionDue_of_wait hw
  have hbusy : (atEvent s rest).busy = true := (atEvent_busy s rest).trans hb
  refine ⟨fun hp => ?_, fun hp => ?_⟩
  · rw [step_write hd hr ha hoff hp, writeWord_busy off v _ hbusy, atEvent_of_busy hb]
    rfl
  · rw [step_read hd hr ha hoff hp, atEvent_of_busy hb, readWord_hostSide]
    rfl

/-- Settles O33. -/
theorem statusWordLayout : Obligations.StatusWordLayout := by
  intro s v
  have hb := s.busy.toNat_lt
  have hd := s.done.toNat_lt
  have hc := s.cmpres.isLt
  have he := s.err.isLt
  refine ⟨statusWord_field s 0 1 _ ?_, statusWord_field s 1 1 _ ?_, statusWord_field s 2 2 _ ?_, statusWord_field s 4 2 _ ?_,
    statusWord_field s 6 2 _ ?_, statusWord_field s 8 4 _ ?_, statusWord_field s 12 20 _ ?_, rfl,
    writeWord_ignored v (.inl rfl)⟩
  case refine_1 | refine_2 => rw [BitVec.toNat_ofBool]; omega
  case refine_3 | refine_5 | refine_7 => rw [BitVec.toNat_zero]; omega
  case refine_4 | refine_6 => omega

/-- Settles O37. -/
theorem reservedOffsetsReadZeroIgnoreWrites : Obligations.ReservedOffsetsReadZeroIgnoreWrites := by
  intro s addr off v ha hoff
  have h := windowReg_reserved off hoff
  rw [serveRead, serveWrite, legalAccess_word off ha, readWord_reserved h, writeWord_ignored v (.inr h)]
  exact ⟨rfl, rfl⟩

/-- Settles O38. -/
theorem commandWriteIsAcceptance : Obligations.CommandWriteIsAcceptance := by
  intro s w hb
  rw [writeWord_cmd w hb rfl]
  exact ⟨rfl, rfl, rfl, rfl, rfl, rfl, rfl, rfl, rfl⟩

end Sys2Proof.Machine
end

section
/-! SUPPORT. The words of the value registers and of STRBUF on the bus (R64, R65, R66). -/

namespace Sys2Proof.Machine

theorem windowReg_of_value (r : Reg) (j : Nat) (hj : j < 4) : windowReg (0x10 * r.number + 4 * j) = .value r j := by
  have hr := r.number_lt
  have hreg : (0x10 * r.number + 4 * j) / 0x10 = r.number := by omega
  have hword : (0x10 * r.number + 4 * j) % 0x10 / 4 = j := by omega
  rw [windowReg, if_pos (by omega), hreg, hword, Reg.ofNumber, Reg.ofBits_number]

theorem windowReg_textWord (k : Nat) (hk : k < 33) : windowReg (0x100 + 4 * k) = .text k := by
  have hword : (0x100 + 4 * k - 0x100) / 4 = k := by omega
  rw [windowReg_of_text _ (by omega) (by omega), hword]

theorem getLsbD_word (v : Value) (j k : Nat) (hk : k < 32) : (word v j).getLsbD k = v.getLsbD (32 * j + k) := by
  rw [word, BitVec.getLsbD_extractLsb', decide_eq_true hk, Bool.true_and]

/-- Little-endian packing: byte `m` of bus word `k` is the byte of STRBUF at `4k + m`. -/
theorem Memory.byteOf_readWord (mem : Memory) (k m : Nat) (hm : m < 4) :
    byteOf (mem.readWord k) m = mem.read (4 * k + m) := by
  rw [Memory.readWord, byteOf_append _ _ _ _ m hm]
  interval_cases m <;> rfl

end Sys2Proof.Machine
end

section
/-! SUPPORT. What a rejected access does: the host sees the rejection, and nothing of the block changes (R63, R240). -/

namespace Sys2Proof.Machine

theorem legalAccess_eq_false {off bytes : Nat} (h : bytes ≠ 4 ∨ off % 4 ≠ 0) : legalAccess off bytes = false := by
  rw [legalAccess, Bool.and_eq_false_iff, beq_eq_false_iff_ne, beq_eq_false_iff_ne]
  exact h

theorem hostFaulted_rejected (b : BusErrorResponse) (s : State) : hostFaulted (reply (.rejected b) s) = true := rfl

@[simp] theorem atEvent_replies (s : State) (rest : List HostEvent) : (atEvent s rest).replies = s.replies := tick_replies s

/-- Coming to the host's next event and answering it, whatever the answer, changes no register of the window. -/
theorem sameBlock_reply_atEvent (y : BusReply) (s : State) (rest : List HostEvent) :
    SameBlock s (reply y (atEvent s rest)) where
  regs r := congrArg (·.get r) (tick_x s)
  cmd := tick_cmd s
  busy := tick_busy s
  done := tick_done s
  cmpres := tick_cmpres s
  err := tick_err s
  text := ⟨tick_strlen s, fun k => congrArg (·.read k) (tick_strbuf s)⟩
  inReset := tick_inReset s

section rejected

variable {s : State} {off bytes : Nat} {rest : List HostEvent} (hd : completionDue s = false) (hr : s.inReset = false)
  (hoff : off < 0x200) (hbad : bytes ≠ 4 ∨ off % 4 ≠ 0)
include hd hr hoff hbad

/-- The step that rejects a misaligned read, or one that is not 32 bits wide. -/
theorem step_read_rejected (hp : s.pending = .read (Config.coreBase + off) bytes :: rest) :
    step s = .next
      (reply (.rejected (Config.busErrorResponse false (Config.coreBase + off) bytes)) (atEvent s rest)) := by
  rw [step_of_event hd hp, serveEvent, atWindow_coreBase_add _ ((atEvent_inReset s rest).trans hr) hoff, serveRead,
    legalAccess_eq_false hbad, if_neg Bool.false_ne_true]

/-- The step that rejects a misaligned write, or one that is not 32 bits wide: no write is done and no command accepted. -/
theorem step_write_rejected {v : Word} (hp : s.pending = .write (Config.coreBase + off) bytes v :: rest) :
    step s = .next
      (reply (.rejected (Config.busErrorResponse true (Config.coreBase + off) bytes)) (atEvent s rest)) := by
  rw [step_of_event hd hp, serveEvent, atWindow_coreBase_add _ ((atEvent_inReset s rest).trans hr) hoff, serveWrite,
    legalAccess_eq_false hbad, if_neg Bool.false_ne_true]

end rejected

end Sys2Proof.Machine
end

section
/-! The statements of 20_memory.md. -/

namespace Sys2Proof.Machine

/-- Settles O35: the offset names word `j` of `x[r]`, and that word is 32 bits of the register from bit `32 * j` up. -/
theorem valueWordsOnTheBus : Obligations.ValueWordsOnTheBus := by
  intro s r j k hj hk
  rw [readWord_value (windowReg_of_value r j hj), getLsbD_word _ _ _ hk]

/-- Settles O36: the offset names word `k` of STRBUF, whose bytes are packed little-endian. -/
theorem textBytesOnTheBus : Obligations.TextBytesOnTheBus := by
  intro s k m hk hm
  rw [readWord_text (windowReg_textWord k hk)]
  exact Memory.byteOf_readWord s.strbuf k m hm

/-- Settles O41: the step that rejects the access adds a reply to what the host has seen, and nothing else but the latency
and the host's events moves on. -/
theorem rejectedAccessChangesNothing : Obligations.RejectedAccessChangesNothing := by
  intro s off bytes v rest hd hr hoff hbad
  refine ⟨fun hp => ?_, fun hp => ?_⟩
  · exact ⟨_, step_read_rejected hd hr hoff hbad hp, sameBlock_reply_atEvent _ s rest, hostFaulted_rejected _ _,
      by rw [reply_replies, atEvent_replies]⟩
  · exact ⟨_, step_write_rejected hd hr hoff hbad hp, sameBlock_reply_atEvent _ s rest, hostFaulted_rejected _ _,
      by rw [reply_replies, atEvent_replies]⟩

end Sys2Proof.Machine
end

section
/-! SUPPORT. The bits of a command word that its row reads, and those it ignores (R80, R86, R90). -/

namespace Sys2Proof

/-! ### Bit fields under a mask -/

/-- The mask holds the `n` bits from bit `lo` up. -/
def covers (m : Word) (lo n : Nat) : Bool := m.extractLsb' lo n == BitVec.allOnes n

/-- Words that agree under a mask have in common the fields that the mask holds. -/
theorem extractLsb'_eq_of_covers {w w' m : Word} (h : w' &&& m = w &&& m) {lo n : Nat} (hm : covers m lo n = true) :
    w'.extractLsb' lo n = w.extractLsb' lo n := by
  have hones : m.extractLsb' lo n = BitVec.allOnes n := beq_iff_eq.mp hm
  have hfield := congrArg (·.extractLsb' lo n) h
  simpa only [BitVec.extractLsb'_and, hones, BitVec.and_allOnes] using hfield

/-- A word with no bit outside a mask has 0 in the fields that the mask leaves out. -/
theorem extractLsb'_eq_zero_of_mask {w m : Word} (h : w &&& m = w) {lo n : Nat} (hm : m.extractLsb' lo n = 0#n) :
    w.extractLsb' lo n = 0#n := by
  rw [← h, BitVec.extractLsb'_and, hm, BitVec.and_zero]

/-- OP and the reserved bits are part of every row's mask (R90). -/
theorem readMask_covers_fixed (i : Instr) :
    covers (readMask i) 0 6 = true ∧ covers (readMask i) 7 1 = true ∧ covers (readMask i) 20 12 = true := by
  cases i <;> simp [covers, readMask, tableMask, maskRD, maskRS1, maskRS2, maskRD2]

/-- S and the register fields of Format C (R80): first bit and width. -/
def operandFields : List (Nat × Nat) := [(6, 1), (8, 3), (11, 3), (14, 3), (17, 3)]

/-- A row reads S and each register field as a whole or not at all (R86, R90). -/
theorem readMask_covers_or_zero (i : Instr) {lo n : Nat} (hf : (lo, n) ∈ operandFields) :
    covers (readMask i) lo n = true ∨ (readMask i).extractLsb' lo n = 0#n := by
  simp only [operandFields, List.mem_cons, Prod.mk.injEq, List.not_mem_nil, or_false] at hf
  rcases hf with ⟨rfl, rfl⟩ | ⟨rfl, rfl⟩ | ⟨rfl, rfl⟩ | ⟨rfl, rfl⟩ | ⟨rfl, rfl⟩ <;> cases i <;>
    simp [covers, readMask, tableMask, maskRD, maskRS1, maskRS2, maskRD2]

/-! ### Rows of the opcode table (R86) -/

section row

variable {op : Nat} {s : Bool} {rd rs1 rs2 rd2 : Reg} {i : Instr}

/-- The row stays the same whatever stands in the fields it does not read: row by row, the fields that occur in the command
are those of its mask. -/
theorem opcodeRow_unread (h : opcodeRow op s rd rs1 rs2 rd2 = some i) (s' : Bool) (rd' rs1' rs2' rd2' : Reg) :
    opcodeRow op (bif covers (readMask i) 6 1 then s else s') (bif covers (readMask i) 8 3 then rd else rd')
      (bif covers (readMask i) 11 3 then rs1 else rs1') (bif covers (readMask i) 14 3 then rs2 else rs2')
      (bif covers (readMask i) 17 3 then rd2 else rd2') = some i := by
  unfold opcodeRow at h
  split at h <;> cases h <;>
    simp [covers, readMask, tableMask, maskRD, maskRS1, maskRS2, maskRD2, opcodeRow]

/-- The assembler's word of a row has 0 in the fields that the row does not read, row by row (R90, R93). -/
theorem encode_eq_packFields (h : opcodeRow op s rd rs1 rs2 rd2 = some i) :
    encode i = packFields op (bif covers (readMask i) 6 1 then s else false)
      (bif covers (readMask i) 8 3 then rd else .x0) (bif covers (readMask i) 11 3 then rs1 else .x0)
      (bif covers (readMask i) 14 3 then rs2 else .x0) (bif covers (readMask i) 17 3 then rd2 else .x0) := by
  unfold opcodeRow at h
  split at h <;> cases h <;>
    simp [covers, readMask, tableMask, maskRD, maskRS1, maskRS2, maskRD2, encode]

end row

/-! ### Words and their commands (R87) -/

theorem decodeWord_eq_ok_iff (w : Word) (i : Instr) : decodeWord w = .ok i ↔
    w.extractLsb' 7 1 = 0#1 ∧ w.extractLsb' 20 12 = 0#12 ∧
      opcodeRow (fieldOP w).toNat (fieldS w) (fieldRD w) (fieldRS1 w) (fieldRS2 w) (fieldRD2 w) = some i := by
  refine ⟨decodeWord_ok w i, fun ⟨h7, h20, hrow⟩ => ?_⟩
  simp only [decodeWord, h7, h20, hrow, ne_eq, not_true_eq_false, if_false]

/-- A word whose reserved bits are 0 is the packing of its fields (R80). -/
theorem packFields_fields (w : Word) (h7 : w.extractLsb' 7 1 = 0#1) (h20 : w.extractLsb' 20 12 = 0#12) :
    packFields (fieldOP w).toNat (fieldS w) (fieldRD w) (fieldRS1 w) (fieldRS2 w) (fieldRD2 w) = w := by
  have hs : (fieldS w).toNat = (w.extractLsb' 6 1).toNat := by
    rcases BitVec.eq_zero_or_eq_one (w.extractLsb' 6 1) with h | h <;> rw [fieldS, h] <;> rfl
  have h7 := congrArg BitVec.toNat h7
  have h20 := congrArg BitVec.toNat h20
  have hw := w.isLt
  apply BitVec.eq_of_toNat_eq
  rw [packFields_toNat _ _ _ _ _ _ (fieldOP w).isLt, hs]
  simp only [fieldOP, fieldRD, fieldRS1, fieldRS2, fieldRD2, Reg.number_ofBits, field_toNat, BitVec.toNat_ofNat] at *
  omega

section mask

variable {w w' : Word} {i : Instr}

/-- Words that agree on the bits `i`'s row reads have in common each field that it reads. -/
theorem cond_covers_of_agree {α : Type} {lo n : Nat} (f : BitVec n → α) (h : w' &&& readMask i = w &&& readMask i) :
    (bif covers (readMask i) lo n then f (w.extractLsb' lo n) else f (w'.extractLsb' lo n)) = f (w'.extractLsb' lo n) := by
  cases hc : covers (readMask i) lo n with
  | true => rw [cond_true, extractLsb'_eq_of_covers h hc]
  | false => rfl

theorem decodeWord_of_agree (hw : decodeWord w = .ok i) (h : w' &&& readMask i = w &&& readMask i) :
    decodeWord w' = .ok i := by
  obtain ⟨h7, h20, hrow⟩ := (decodeWord_eq_ok_iff w i).mp hw
  obtain ⟨hop, hres0, hres1⟩ := readMask_covers_fixed i
  refine (decodeWord_eq_ok_iff w' i).mpr
    ⟨(extractLsb'_eq_of_covers h hres0).trans h7, (extractLsb'_eq_of_covers h hres1).trans h20, ?_⟩
  have hopcode : fieldOP w' = fieldOP w := extractLsb'_eq_of_covers h hop
  have hmixed := opcodeRow_unread hrow (fieldS w') (fieldRD w') (fieldRS1 w') (fieldRS2 w') (fieldRD2 w')
  have hs := cond_covers_of_agree (lo := 6) (· == 1#1) h
  have hreg := fun lo => cond_covers_of_agree (lo := lo) Reg.ofBits h
  rw [hopcode]
  simpa only [fieldS, fieldRD, fieldRS1, fieldRS2, fieldRD2, hs, hreg] using hmixed

/-- In a word with no bit outside the mask of `i`'s row, a field that the row does not read is 0. -/
theorem cond_covers_of_masked {α : Type} {lo n : Nat} (f : BitVec n → α) (h : w &&& readMask i = w)
    (hf : (lo, n) ∈ operandFields) :
    (bif covers (readMask i) lo n then f (w.extractLsb' lo n) else f 0#n) = f (w.extractLsb' lo n) := by
  rcases readMask_covers_or_zero i hf with hc | hz
  · rw [hc, cond_true]
  · rw [extractLsb'_eq_zero_of_mask h hz, Bool.cond_self]

/-- A legal word with no bit outside its row's mask is the word the assembler writes (R90, R93). -/
theorem encode_of_masked (hw : decodeWord w = .ok i) (h : w &&& readMask i = w) : encode i = w := by
  obtain ⟨h7, h20, hrow⟩ := (decodeWord_eq_ok_iff w i).mp hw
  have hs : (bif covers (readMask i) 6 1 then fieldS w else false) = fieldS w :=
    cond_covers_of_masked (· == 1#1) h (by decide)
  have hreg (lo : Nat) (hlo : (lo, 3) ∈ operandFields) :
      (bif covers (readMask i) lo 3 then Reg.ofBits (w.extractLsb' lo 3) else .x0) = Reg.ofBits (w.extractLsb' lo 3) :=
    cond_covers_of_masked Reg.ofBits h hlo
  rw [encode_eq_packFields hrow, hs, fieldRD, fieldRS1, fieldRS2, fieldRD2, hreg 8 (by decide), hreg 11 (by decide),
    hreg 14 (by decide), hreg 17 (by decide)]
  exact packFields_fields w h7 h20

end mask

end Sys2Proof
end

section
/-! SUPPORT. Runs of host accesses on an idle block: a list of word writes, a list of word reads (R62, R95). -/

namespace Sys2Proof.Machine

/-! ### What a write leaves alone -/

theorem writeWord_inReset (off : Nat) (v : Word) (s : State) : (writeWord off v s).inReset = s.inReset := by
  unfold writeWord
  split
  · rfl
  · split <;> rfl

/-- A block stays idle over every write but that of a command. -/
theorem writeWord_idle_busy {off : Nat} {s : State} (v : Word) (hb : s.busy = false) (hcmd : windowReg off ≠ .cmd) :
    (writeWord off v s).busy = false := by
  cases h : windowReg off with
  | cmd => exact absurd h hcmd
  | value | strlen | text => simp only [writeWord_idle off v s hb, h]; exact hb
  | status => rwa [writeWord_ignored v (.inl h)]
  | reserved => rwa [writeWord_ignored v (.inr h)]

theorem writeWord_pending (off : Nat) (v : Word) (es : List HostEvent) (s : State) :
    writeWord off v { s with pending := es } = { writeWord off v s with pending := es } := by
  unfold writeWord
  dsimp only
  split
  · rfl
  · split <;> rfl

/-! ### Lists of accesses -/

/-- The state after the host's writes `ws`, pairs of an offset and a word, have been served. -/
def afterWrites : List (Nat × Word) → State → State
  | [], s => s
  | (off, v) :: ws, s => afterWrites ws (reply .written (writeWord off v s))

theorem afterWrites_append (ws ws' : List (Nat × Word)) (s : State) :
    afterWrites (ws ++ ws') s = afterWrites ws' (afterWrites ws s) := by
  induction ws generalizing s with
  | nil => rfl
  | cons p ws ih => exact ih _

/-- An offset at which an idle block serves a write without accepting a command: aligned, in the window, not CMD. -/
def LoadsAt (off : Nat) : Prop := off % 4 = 0 ∧ off < 0x200 ∧ windowReg off ≠ .cmd

theorem run_writes (ws : List (Nat × Word)) (s : State) (rest : List HostEvent) (hb : s.busy = false)
    (hr : s.inReset = false) (hoff : ∀ p ∈ ws, LoadsAt p.1)
    (hp : s.pending = ws.map (fun p => memWrite p.1 p.2) ++ rest) :
    Host.Core.run Sys2Proof.core ws.length s = .next (afterWrites ws { s with pending := rest }) := by
  induction ws generalizing s with
  | nil =>
    have hp' : s.pending = rest := hp
    subst hp'
    rfl
  | cons p ws ih =>
    obtain ⟨⟨ha, hlt, hcmd⟩, hws⟩ := List.forall_mem_cons.mp hoff
    obtain ⟨off, v⟩ := p
    have hserved (es : List HostEvent) : reply .written (writeWord off v { s with pending := es }) =
        { reply .written (writeWord off v s) with pending := es } := congrArg _ (writeWord_pending off v es s)
    have hstep := step_write (completionDue_of_idle hb) hr ha hlt hp
    rw [atEvent_of_idle hb, hserved] at hstep
    have hrun := ih { reply .written (writeWord off v s) with pending := ws.map (fun p => memWrite p.1 p.2) ++ rest }
      (writeWord_idle_busy v hb hcmd) ((writeWord_inReset off v s).trans hr) hws rfl
    rw [List.length_cons, run_succ _ hstep, afterWrites, hserved rest]
    exact hrun

/-- Reads, in order, leave only their replies (R69). -/
theorem run_reads (offs : List Nat) (s : State) (rest : List HostEvent) (hb : s.busy = false) (hr : s.inReset = false)
    (hoff : ∀ off ∈ offs, off % 4 = 0 ∧ off < 0x200) (hp : s.pending = offs.map memRead ++ rest) :
    Host.Core.run Sys2Proof.core offs.length s = .next
      { s with
        pending := rest
        replies := (offs.map fun off => .data (readWord off s)).reverse ++ s.replies } := by
  induction offs generalizing s with
  | nil =>
    have hp' : s.pending = rest := hp
    subst hp'
    rfl
  | cons off offs ih =>
    obtain ⟨⟨ha, hlt⟩, hoffs⟩ := List.forall_mem_cons.mp hoff
    have hstep := step_read (completionDue_of_idle hb) hr ha hlt hp
    rw [atEvent_of_idle hb] at hstep
    have hrun := ih (reply (.data (readWord off s)) { s with pending := offs.map memRead ++ rest }) hb hr hoffs rfl
    rw [List.length_cons, run_succ _ hstep, List.map_cons, List.reverse_cons, List.append_assoc]
    exact hrun

end Sys2Proof.Machine
end

section
/-! SUPPORT. The host operations LDX, RDX and LDS on an idle block (R95). -/

namespace Sys2Proof.Machine

/-! ### LDX and RDX: the words of a value register (R64) -/

theorem loadsAt_value (r : Reg) (j : Nat) (hj : j < 4) : LoadsAt (0x10 * r.number + 4 * j) := by
  have hr := r.number_lt
  exact ⟨by omega, by omega, by simp [windowReg_of_value r j hj]⟩

theorem RegFile.set_set (f : RegFile) (r : Reg) (u v : Value) : (f.set r u).set r v = f.set r v := by
  cases r <;> rfl

/-- A value is made of its four words. -/
theorem eq_of_words {a b : Value} (h : ∀ j, j < 4 → word a j = word b j) : a = b := by
  rw [← ofWords_wordsOf a, ← ofWords_wordsOf b, wordsOf, wordsOf, h 0 (by decide), h 1 (by decide), h 2 (by decide),
    h 3 (by decide)]

/-- The four words of `v`, written one after the other over any value, leave `v`. -/
theorem setWord_all (u v : Value) :
    setWord (setWord (setWord (setWord u 0 (word v 0)) 1 (word v 1)) 2 (word v 2)) 3 (word v 3) = v := by
  apply eq_of_words
  intro j hj
  rw [word_setWord _ _ 3 j (by decide) hj, word_setWord _ _ 2 j (by decide) hj, word_setWord _ _ 1 j (by decide) hj,
    word_setWord _ _ 0 j (by decide) hj]
  interval_cases j <;> rfl

/-- `s` with `u` in `x[r]`, after the host has seen `n` more of its writes served. -/
def withValue (r : Reg) (u : Value) (n : Nat) (s : State) : State :=
  { writeReg r u s with replies := List.replicate n .written ++ s.replies }

theorem withValue_self (r : Reg) (s : State) : withValue r (readReg r s) 0 s = s := by
  cases r <;> rfl

theorem serve_ldx_word (r : Reg) (u : Value) (w : Word) (n : Nat) {s : State} (hb : s.busy = false) {j : Nat} (hj : j < 4) :
    reply .written (writeWord (0x10 * r.number + 4 * j) w (withValue r u n s)) =
      withValue r (setWord u j w) (n + 1) s := by
  have hread : readReg r (withValue r u n s) = u := readReg_writeReg_same r u s
  rw [writeWord_value w (s := withValue r u n s) hb (windowReg_of_value r j hj), hread]
  exact congrArg (fun f : RegFile => { s with x := f, replies := List.replicate (n + 1) BusReply.written ++ s.replies })
    (RegFile.set_set s.x r u (setWord u j w))

/-- The writes of LDX, each an offset and a word. -/
def valueWrites (r : Reg) (v : Value) : List (Nat × Word) :=
  (List.range 4).map fun j => (0x10 * r.number + 4 * j, word v j)

theorem afterWrites_value (r : Reg) (v : Value) {s : State} (hb : s.busy = false) :
    afterWrites (valueWrites r v) s = withValue r v 4 s := by
  have hwrites : valueWrites r v = [(0x10 * r.number + 4 * 0, word v 0), (0x10 * r.number + 4 * 1, word v 1),
      (0x10 * r.number + 4 * 2, word v 2), (0x10 * r.number + 4 * 3, word v 3)] := rfl
  conv_lhs => rw [hwrites, ← withValue_self r s]
  simp only [afterWrites]
  rw [serve_ldx_word r _ _ _ hb (by decide), serve_ldx_word r _ _ _ hb (by decide), serve_ldx_word r _ _ _ hb (by decide),
    serve_ldx_word r _ _ _ hb (by decide), setWord_all]

/-! ### LDS: the words of STRBUF (R66) -/

/-- A byte after a bus word was written: the word's byte, or what it was (R36, R66). -/
theorem Memory.read_writeWord (m : Memory) (k a : Nat) (w : Word) (h : m.wf = true) (hk : k < 33) :
    (m.writeWord k w).read a = if a / 4 = k then byteOf w (a % 4) else m.read a := by
  have hbyte (m' : Memory) : m'.read a = byteOf (m'.readWord (a / 4)) (a % 4) := by
    rw [Memory.byteOf_readWord m' _ _ (by omega), Nat.div_add_mod]
  rw [hbyte, hbyte m, Memory.readWord_writeWord m k _ w h (by unfold strbufSize; omega)]
  split <;> rfl

/-- STRBUF word `k` of a text: its bytes from `4k` on, and zero padding (R95 LDS). -/
def textWord (bs : List Byte) (k : Nat) : Word :=
  textByte bs (4 * k + 3) ++ textByte bs (4 * k + 2) ++ textByte bs (4 * k + 1) ++ textByte bs (4 * k)

theorem byteOf_textWord (bs : List Byte) (a : Nat) : byteOf (textWord bs (a / 4)) (a % 4) = textByte bs a := by
  have hm : a % 4 < 4 := Nat.mod_lt _ (by decide)
  have ha : 4 * (a / 4) + a % 4 = a := Nat.div_add_mod a 4
  rw [textWord, byteOf_append _ _ _ _ _ hm]
  generalize a / 4 = k at ha
  generalize a % 4 = m at ha hm
  subst ha
  interval_cases m <;> rfl

/-- The first `n` writes of LDS that load characters. -/
def textWrites (bs : List Byte) (n : Nat) : List (Nat × Word) :=
  (List.range n).map fun k => (0x100 + 4 * k, textWord bs k)

/-- The number of STRBUF words that hold a text. -/
def textWords (bs : List Byte) : Nat := (bs.length + 3) / 4

/-- `t` is `s` with the first `n` words of the text in STRBUF, as the host sees it. -/
structure TextLoaded (bs : List Byte) (n : Nat) (s t : State) : Prop where
  wf : t.strbuf.wf = true
  read : ∀ a, t.strbuf.read a = if a < 4 * n then textByte bs a else s.strbuf.read a
  x : t.x = s.x
  cmd : t.cmd = s.cmd
  busy : t.busy = s.busy
  pending : t.pending = s.pending

theorem textLoaded_afterWrites (bs : List Byte) (n : Nat) (hn : n ≤ 33) {s : State} (hb : s.busy = false)
    (hwf : s.strbuf.wf = true) : TextLoaded bs n s (afterWrites (textWrites bs n) s) := by
  induction n with
  | zero => exact ⟨hwf, fun _ => rfl, rfl, rfl, rfl, rfl⟩
  | succ n ih =>
    obtain ⟨hwf', hread, hx, hcmd, hbusy, hpending⟩ := ih (by omega)
    have hwrites : textWrites bs (n + 1) = textWrites bs n ++ [(0x100 + 4 * n, textWord bs n)] := by
      rw [textWrites, textWrites, List.range_succ, List.map_append, List.map_singleton]
    rw [hwrites, afterWrites_append, afterWrites, afterWrites,
      writeWord_text _ (hbusy.trans hb) (windowReg_textWord n (by omega))]
    refine ⟨Memory.wf_writeWord _ _ _ hwf' (by unfold strbufSize; omega), fun a => ?_, hx, hcmd, hbusy, hpending⟩
    refine (Memory.read_writeWord _ n a _ hwf' (by omega)).trans ?_
    by_cases ha : a / 4 = n
    · rw [if_pos ha, if_pos (by omega), ← ha, byteOf_textWord]
    · rw [if_neg ha, hread]
      exact if_congr (by omega) rfl rfl

/-- The writes of LDS: the text, then its length. -/
def ldsWrites (bs : List Byte) : List (Nat × Word) :=
  textWrites bs (textWords bs) ++ [(0x088, BitVec.ofNat 32 bs.length)]

theorem lds_eq_map (bs : List Byte) : lds bs = (ldsWrites bs).map fun p => memWrite p.1 p.2 := by
  simp only [lds, ldsWrites, textWrites, List.map_append, List.map_map]
  rfl

theorem loadsAt_strlen : LoadsAt 0x088 := ⟨by decide, by decide, by decide⟩

theorem loadsAt_ldsWrites (bs : List Byte) (h : textWords bs ≤ 33) : ∀ p ∈ ldsWrites bs, LoadsAt p.1 := by
  intro p hp
  rcases List.mem_append.mp hp with htext | hlen
  · obtain ⟨k, hk, rfl⟩ := List.mem_map.mp htext
    have hk := List.mem_range.mp hk
    exact ⟨by omega, by omega, by simp [windowReg_textWord k (by omega)]⟩
  · exact List.mem_singleton.mp hlen ▸ loadsAt_strlen

theorem length_ldsWrites (bs : List Byte) : (ldsWrites bs).length = textWords bs + 1 := by
  simp [ldsWrites, textWrites]

end Sys2Proof.Machine
end

section
/-! The statements of 30_encoding.md. -/

namespace Sys2Proof.Machine

/-! ### Command words -/

/-- Settles O1: an encoding packs the fields of its command's table row, and the decoder reads them back. -/
theorem decodeInvertsEncode : Obligations.DecodeInvertsEncode := decodeWord_encode

/-- Settles O2: the two words have OP, the reserved bits and every field that the row reads in common. -/
theorem decodeDependsOnlyOnReadBits : Obligations.DecodeDependsOnlyOnReadBits :=
  fun _ _ _ hw h => decodeWord_of_agree hw h

/-- Settles O3: the word with the ignored bits cleared still decodes to the command, and has no other bit set. -/
theorem decodedWordIsItsEncoding : Obligations.DecodedWordIsItsEncoding := by
  intro w i hw
  have hmask : w &&& readMask i &&& readMask i = w &&& readMask i := by rw [BitVec.and_assoc, BitVec.and_self]
  exact encode_of_masked (decodeWord_of_agree hw hmask) hmask

/-- Settles O4: each word is the encoding of its command. -/
theorem sampleWordsDecode : Obligations.SampleWordsDecode :=
  ⟨decodeWord_encode (.add .x3 .x1 .x2), decodeWord_encode (.not .x3 .x1), decodeWord_encode (.sll .x3 .x1 .x2),
    decodeWord_encode (.cmpS .x3 .x1 .x2), decodeWord_encode (.pow .x3 .x1 .x2),
    decodeWord_encode (.divremS .x3 .x4 .x1 .x2), decodeWord_encode (.sqrtS .x3 .x1), decodeWord_encode (.parse .x3 .x2),
    decodeWord_encode (.cmaxS .x3)⟩

/-! ### Host operations (R95) -/

/-- Settles O43: the run of the four writes, and the run of the four reads. -/
theorem hostLoadsAndReadsValue : Obligations.HostLoadsAndReadsValue := by
  intro s r v rest hb hr
  refine ⟨fun hp => ?_, fun hp => ?_⟩
  · have hoff : ∀ p ∈ valueWrites r v, LoadsAt p.1 := by
      intro p hp
      obtain ⟨j, hj, rfl⟩ := List.mem_map.mp hp
      exact loadsAt_value r j (List.mem_range.mp hj)
    have hrun := run_writes (valueWrites r v) s rest hb hr hoff hp
    rw [afterWrites_value r v (s := { s with pending := rest }) hb] at hrun
    exact hrun
  · have hoff : ∀ off ∈ (List.range 4).map (0x10 * r.number + 4 * ·), off % 4 = 0 ∧ off < 0x200 := by
      intro off ho
      obtain ⟨j, hj, rfl⟩ := List.mem_map.mp ho
      obtain ⟨ha, hlt, -⟩ := loadsAt_value r j (List.mem_range.mp hj)
      exact ⟨ha, hlt⟩
    have hword (j : Nat) (hj : j < 4) : readWord (0x10 * r.number + 4 * j) s = word (readReg r s) j :=
      readWord_value (windowReg_of_value r j hj)
    have hrun := run_reads _ s rest hb hr hoff hp
    rw [← hword 0 (by decide), ← hword 1 (by decide), ← hword 2 (by decide), ← hword 3 (by decide)]
    exact hrun

/-- Settles O44: the words of the text one by one, then STRLEN, which leaves STRBUF as it is. -/
theorem hostLoadsText : Obligations.HostLoadsText := by
  intro s bs hb hr hwf hlen hp
  have hwords : textWords bs ≤ 33 := by unfold textWords; omega
  obtain ⟨-, hread, hx, hcmd, hbusy, hpending⟩ :=
    textLoaded_afterWrites bs (textWords bs) hwords (s := { s with pending := [] }) hb hwf
  have hrun := run_writes (ldsWrites bs) s [] hb hr (loadsAt_ldsWrites bs hwords) (by rw [hp, lds_eq_map, List.append_nil])
  rw [length_ldsWrites, ldsWrites, afterWrites_append, afterWrites, afterWrites,
    writeWord_strlen (off := 0x088) _ (hbusy.trans hb) rfl] at hrun
  refine ⟨_, hrun, ?_, fun k hk => ?_, fun k hk => ?_, hx, hcmd, hbusy.trans hb, hpending⟩
  · rw [reply_strlen, field_toNat, BitVec.toNat_ofNat]
    omega
  · exact (hread k).trans (if_pos hk)
  · exact (hread k).trans (if_neg (Nat.not_lt.mpr hk))

end Sys2Proof.Machine
end

section
/-! SUPPORT. The command of a word with a given OP (R86, R87), for any row of the opcode table. -/

namespace Sys2Proof.Machine

/-- A word with operation `op` decodes to the table row that `op`, its S bit and its register fields select (R86). -/
theorem decodeWord_of_hasOpcode {w : Word} {op : Nat} {i : Instr} (h : HasOpcode w op)
    (hrow : opcodeRow op (fieldS w) (regAt w 8) (regAt w 11) (regAt w 14) (regAt w 17) = some i) :
    decodeWord w = .ok i :=
  (decodeWord_eq_ok_iff w i).mpr ⟨h.res0, h.res1, by rw [fieldOP, h.op]; exact hrow⟩

end Sys2Proof.Machine
end

section
/-! SUPPORT. What ADD, SUB, NEG, NOT, AND, OR and XOR leave in x[rd] (R101 to R110), and negation read as signed (R106). -/

namespace Sys2Proof.Machine

/-! ### The completion of each command

The adder, the subtractor and negation work word by word; their laws give the value modulo 2^128. -/

section arms

variable (rd rs1 rs2 : Reg) (s : State)

theorem exec_add : exec (.add rd rs1 rs2) s = completeReg rd (readReg rs1 s + readReg rs2 s) s := by
  have hsum : add128 (readReg rs1 s) (readReg rs2 s) 0 = readReg rs1 s + readReg rs2 s := by
    rw [add128_eq _ _ _ (Nat.zero_le 1), BitVec.add_zero]
  exact congrArg (completeReg rd · s) hsum

theorem exec_sub : exec (.sub rd rs1 rs2) s = completeReg rd (readReg rs1 s - readReg rs2 s) s :=
  congrArg (completeReg rd · s) (sub128_eq (readReg rs1 s) (readReg rs2 s))

theorem exec_neg : exec (.neg rd rs1) s = completeReg rd (-readReg rs1 s) s :=
  congrArg (completeReg rd · s) (neg128_eq (readReg rs1 s))

theorem exec_not : exec (.not rd rs1) s = completeReg rd (~~~readReg rs1 s) s := rfl

theorem exec_and : exec (.and rd rs1 rs2) s = completeReg rd (readReg rs1 s &&& readReg rs2 s) s := rfl

theorem exec_or : exec (.or rd rs1 rs2) s = completeReg rd (readReg rs1 s ||| readReg rs2 s) s := rfl

theorem exec_xor : exec (.xor rd rs1 rs2) s = completeReg rd (readReg rs1 s ^^^ readReg rs2 s) s := rfl

end arms

/-! ### Completions with one register result -/

section result

variable {i : Instr} {rd : Reg} {v : Value} {s : State}

theorem writesReg_of_exec (h : exec i s = completeReg rd v s) : ∃ t, exec i s = .next t ∧ WritesReg rd v s t :=
  h ▸ completeReg_spec rd v s

theorem writesReg_bits_of_exec {bit : Nat → Bool} (h : exec i s = completeReg rd v s)
    (hbit : ∀ k, k < 128 → v.getLsbD k = bit k) :
    ∃ t v, exec i s = .next t ∧ WritesReg rd v s t ∧ ∀ k, k < 128 → v.getLsbD k = bit k := by
  obtain ⟨t, ht, hw⟩ := writesReg_of_exec h
  exact ⟨t, v, ht, hw, hbit⟩

end result

/-! ### Negation read as signed (R106) -/

theorem neg_signedMin : -signedMin = signedMin := by decide

theorem toInt_signedMin : signedMin.toInt = -2 ^ 127 := by decide

theorem toNat_signedMin : signedMin.toNat = 2 ^ 127 := by decide

theorem signedMin_eq_intMin : signedMin = BitVec.intMin 128 := by decide

end Sys2Proof.Machine
end

section
/-! The statements of 40_add_logic.md. -/

namespace Sys2Proof.Machine

/-- Settles O8: each OP is one row of the table whatever S is, and the word-by-word units compute modulo 2^128. -/
theorem addSubNegResults : Obligations.AddSubNegResults :=
  ⟨fun _ h => decodeWord_of_hasOpcode h rfl, fun _ h => decodeWord_of_hasOpcode h rfl,
    fun _ h => decodeWord_of_hasOpcode h rfl,
    fun rd rs1 rs2 s => writesReg_of_exec (exec_add rd rs1 rs2 s),
    fun rd rs1 rs2 s => writesReg_of_exec (exec_sub rd rs1 rs2 s),
    fun rd rs1 s => writesReg_of_exec (exec_neg rd rs1 s)⟩

/-- Settles O9: each OP is one row of the table whatever S is, and a bit of the result depends on the operands' bits at its
place alone. -/
theorem logicResults : Obligations.LogicResults :=
  ⟨fun _ h => decodeWord_of_hasOpcode h rfl, fun _ h => decodeWord_of_hasOpcode h rfl,
    fun _ h => decodeWord_of_hasOpcode h rfl, fun _ h => decodeWord_of_hasOpcode h rfl,
    fun rd rs1 s => writesReg_bits_of_exec (exec_not rd rs1 s) fun k hk => by
      rw [BitVec.getLsbD_not, decide_eq_true hk, Bool.true_and],
    fun rd rs1 rs2 s => writesReg_bits_of_exec (exec_and rd rs1 rs2 s) fun _ _ => BitVec.getLsbD_and,
    fun rd rs1 rs2 s => writesReg_bits_of_exec (exec_or rd rs1 rs2 s) fun _ _ => BitVec.getLsbD_or,
    fun rd rs1 rs2 s => writesReg_bits_of_exec (exec_xor rd rs1 rs2 s) fun _ _ => BitVec.getLsbD_xor⟩

/-- Settles O10: min is its own negation, and at every other value negation negates the signed reading. -/
theorem negationSignedReading : Obligations.NegationSignedReading := by
  intro rd rs1 s
  obtain ⟨t, ht, hw⟩ := writesReg_of_exec (exec_neg rd rs1 s)
  refine ⟨t, ht, ?_⟩
  rw [hw.result]
  change if readReg rs1 s = signedMin then _ else _
  split
  case isTrue hmin =>
    rw [hmin, neg_signedMin]
    exact ⟨rfl, toInt_signedMin, toNat_signedMin⟩
  case isFalse hne => exact BitVec.toInt_neg_of_ne_intMin (signedMin_eq_intMin ▸ hne)

end Sys2Proof.Machine
end

section
/-! SUPPORT. The shifters are the logical shifts of a 128-bit pattern, for every count (R120, R121, R122). -/

namespace Sys2Proof.Machine

/-- The left shifter's clamp at 128 agrees with the shift modulo 2^128 (R120, R121). -/
theorem shiftLeft_eq_logical (a : Value) (c : Nat) : shiftLeft a c = a <<< c := by
  apply BitVec.eq_of_toNat_eq
  rw [shiftLeft_eq, BitVec.toNat_ofNat, BitVec.toNat_shiftLeft, Nat.shiftLeft_eq]

theorem toNat_shiftRight (a : Value) (c : Nat) : (shiftRight a c).toNat = a.toNat / 2 ^ c := by
  have hlt : a.toNat / 2 ^ c < 2 ^ 128 := (Nat.div_le_self _ _).trans_lt a.isLt
  rw [shiftRight_eq, BitVec.toNat_ofNat, Nat.mod_eq_of_lt hlt]

/-- The right shifter fills with zeros whatever bit 127 is, and its clamp at 128 agrees with that (R120, R122, R123). -/
theorem shiftRight_eq_logical (a : Value) (c : Nat) : shiftRight a c = a >>> c := by
  apply BitVec.eq_of_toNat_eq
  rw [toNat_shiftRight, BitVec.toNat_ushiftRight, Nat.shiftRight_eq_div_pow]

section arms

variable (rd rs1 rs2 : Reg) (s : State)

theorem exec_sll :
    exec (.sll rd rs1 rs2) s = completeReg rd (shiftLeft (readReg rs1 s) (readReg rs2 s).toNat) s := rfl

theorem exec_srl :
    exec (.srl rd rs1 rs2) s = completeReg rd (shiftRight (readReg rs1 s) (readReg rs2 s).toNat) s := rfl

end arms

/-! ### Shift laws (R124) -/

theorem shiftLeft_eq_mul (a : Value) (c : Nat) : shiftLeft a c = a * BitVec.ofNat 128 (2 ^ c) := by
  rw [shiftLeft_eq, BitVec.ofNat_mul, BitVec.ofNat_toNat, BitVec.setWidth_eq]

/-- Left and then right by one count keeps the low `128 - c` bits in place and clears the rest. -/
theorem getLsbD_shiftRight_shiftLeft (a : Value) (c k : Nat) :
    (shiftRight (shiftLeft a c) c).getLsbD k = (decide (k < 128 - c) && a.getLsbD k) := by
  have hbound : c + k < 128 ↔ k < 128 - c := by omega
  rw [shiftRight_eq_logical, shiftLeft_eq_logical, BitVec.getLsbD_ushiftRight, BitVec.getLsbD_shiftLeft,
    Nat.add_sub_cancel_left, decide_eq_false (by omega : ¬c + k < c), Bool.not_false, Bool.and_true,
    decide_eq_decide.mpr hbound]

section composition

variable (a : Value) {c c1 c2 : Nat}

theorem shiftLeft_shiftLeft : shiftLeft (shiftLeft a c1) c2 = shiftLeft a (c1 + c2) := by
  simp only [shiftLeft_eq_logical, BitVec.shiftLeft_add]

theorem shiftRight_shiftRight : shiftRight (shiftRight a c1) c2 = shiftRight a (c1 + c2) := by
  simp only [shiftRight_eq_logical, BitVec.shiftRight_add]

theorem shiftLeft_of_ge (h : 128 ≤ c) : shiftLeft a c = 0 := if_pos h

theorem shiftRight_of_ge (h : 128 ≤ c) : shiftRight a c = 0 := if_pos h

end composition

end Sys2Proof.Machine
end

section
/-! The statements of 41_shift.md. -/

namespace Sys2Proof.Machine

/-- Settles O11: each OP is one row of the table whatever S is, and the clamped shifters are the logical shifts. -/
theorem shiftResults : Obligations.ShiftResults :=
  ⟨fun _ h => decodeWord_of_hasOpcode h rfl, fun _ h => decodeWord_of_hasOpcode h rfl,
    fun rd rs1 rs2 s => shiftLeft_eq_logical _ _ ▸ writesReg_of_exec (exec_sll rd rs1 rs2 s),
    fun rd rs1 rs2 s => shiftRight_eq_logical _ _ ▸ writesReg_of_exec (exec_srl rd rs1 rs2 s)⟩

/-- Settles O12: the completions give what the shifters compute; two shifts in one direction add their counts, and a total of
128 or more clears the value. -/
theorem shiftLaws : Obligations.ShiftLaws := by
  refine ⟨fun rd rs1 rs2 s => ?_, fun a c c1 c2 => ⟨fun _ => shiftLeft_eq_mul a c, fun _ => toNat_shiftRight a c,
    fun _ k _ => getLsbD_shiftRight_shiftLeft a c k, fun _ => ⟨shiftLeft_shiftLeft a, shiftRight_shiftRight a⟩,
    fun h => ⟨?_, ?_⟩⟩⟩
  · obtain ⟨t, ht, hleft⟩ := writesReg_of_exec (exec_sll rd rs1 rs2 s)
    obtain ⟨u, hu, hright⟩ := writesReg_of_exec (exec_srl rd rs1 rs2 s)
    exact ⟨t, u, ht, hu, hleft.result, hright.result⟩
  · exact (shiftLeft_shiftLeft a).trans (shiftLeft_of_ge a h)
  · exact (shiftRight_shiftRight a).trans (shiftRight_of_ge a h)

end Sys2Proof.Machine
end

section
/-! SUPPORT. The S bit selects the row of an OP with two (R82, R86). -/

namespace Sys2Proof.Machine

section signBit

variable {w : Word} {op : Nat} {i : Instr} (h : HasOpcode w op)
include h

theorem decodeWord_of_hasOpcode_unsigned (hS : w.extractLsb' 6 1 = 0#1)
    (hrow : opcodeRow op false (regAt w 8) (regAt w 11) (regAt w 14) (regAt w 17) = some i) : decodeWord w = .ok i :=
  decodeWord_of_hasOpcode h (by rwa [fieldS, hS])

theorem decodeWord_of_hasOpcode_signed (hS : w.extractLsb' 6 1 = 1#1)
    (hrow : opcodeRow op true (regAt w 8) (regAt w 11) (regAt w 14) (regAt w 17) = some i) : decodeWord w = .ok i :=
  decodeWord_of_hasOpcode h (by rwa [fieldS, hS])

end signBit

end Sys2Proof.Machine
end

section
/-! SUPPORT. CMP.U compares the unsigned readings of its operands and CMP.S the signed ones (R130); what holds of a comparison
of readings in any linear order is said once for both (R131, R132). -/

namespace Sys2Proof.Machine

/-! ### The completion of each command -/

section arms

variable (rd rs1 rs2 : Reg) (s : State)

theorem exec_cmpU : exec (.cmpU rd rs1 rs2) s =
    completeCompare rd (compare (readReg rs1 s).toNat (readReg rs2 s).toNat) s :=
  congrArg (completeCompare rd · s) (ucmp_eq (readReg rs1 s) (readReg rs2 s))

theorem exec_cmpS : exec (.cmpS rd rs1 rs2) s =
    completeCompare rd (compare (readReg rs1 s).toInt (readReg rs2 s).toInt) s :=
  congrArg (completeCompare rd · s) (scmp_eq (readReg rs1 s) (readReg rs2 s))

end arms

/-! ### Completions with the outcome of a comparison -/

section completion

variable {i : Instr} {rd : Reg} {s : State}

/-- The three exclusive outcomes, each with its x[rd] and its CMPRES, and what the completion leaves alone (R131). -/
theorem compareResults_of_exec {α : Type} [LinearOrder α] {a b : α} (h : exec i s = completeCompare rd (compare a b) s) :
    ∃ t, exec i s = .next t ∧
      (a < b → (readReg rd t).toInt = -1 ∧ t.cmpres = 2#2) ∧
      (a = b → (readReg rd t).toInt = 0 ∧ t.cmpres = 0#2) ∧
      (a > b → (readReg rd t).toInt = 1 ∧ t.cmpres = 1#2) ∧
      RegsKeptBut [rd] s t ∧ TextKept s t ∧ CompletedWith 0#4 t ∧ CompletionFrame s t := by
  obtain ⟨t, ht, hcmpres, hw⟩ := completeCompare_spec rd (compare a b) s
  have houtcome : ∀ o, compare a b = o → (readReg rd t).toInt = (compareValue o).toInt ∧ t.cmpres = cmpresOf o := by
    rintro _ rfl
    exact ⟨congrArg BitVec.toInt hw.result, hcmpres⟩
  exact ⟨t, h.trans ht, fun hlt => houtcome .lt (compare_lt_iff_lt.mpr hlt),
    fun heq => houtcome .eq (compare_eq_iff_eq.mpr heq), fun hgt => houtcome .gt (compare_gt_iff_gt.mpr hgt),
    hw.others, ⟨hw.text.strlen, hw.text.strbuf⟩, hw.status,
    ⟨hw.frame.cmd, hw.frame.inReset, hw.frame.wait, hw.frame.pending, hw.frame.replies, hw.frame.freeIndex⟩⟩

/-- What a comparison writes to x[rd] is the sign of the difference (R132). -/
theorem toInt_compareValue_compare (a b : Int) : (compareValue (compare a b)).toInt = (a - b).sign := by
  rcases lt_trichotomy a b with hlt | rfl | hgt
  · rw [compare_lt_iff_lt.mpr hlt, Int.sign_eq_neg_one_of_neg (Int.sub_neg_of_lt hlt)]
    rfl
  · rw [compare_eq_iff_eq.mpr rfl, Int.sub_self]
    rfl
  · rw [compare_gt_iff_gt.mpr hgt, Int.sign_eq_one_of_pos (Int.sub_pos_of_lt hgt)]
    rfl

theorem compare_sign_of_exec {a b : Int} (h : exec i s = completeCompare rd (compare a b) s) :
    ∃ t, exec i s = .next t ∧ (readReg rd t).toInt = (a - b).sign := by
  obtain ⟨t, ht, -, hw⟩ := completeCompare_spec rd (compare a b) s
  exact ⟨t, h.trans ht, by rw [hw.result, toInt_compareValue_compare]⟩

theorem compare_natCast (a b : Nat) : compare (a : Int) (b : Int) = compare a b := by
  simpa only [cmp_eq_compare] using Int.natCast_strictMono.cmp_map_eq a b

end completion

/-! ### The order laws (R132) -/

section order

variable {α : Type} [LinearOrder α] {cmp : Value → Value → Ordering} {reading : Value → α}
  (h : ∀ p q, cmp p q = compare (reading p) (reading q))
include h

theorem comparator_gt_iff_lt (p q : Value) : cmp p q = .gt ↔ cmp q p = .lt := by
  rw [h, h, compare_gt_iff_gt, compare_lt_iff_lt]

theorem comparator_eq_iff (hinj : Function.Injective reading) (p q : Value) : cmp p q = .eq ↔ p = q := by
  rw [h, compare_eq_iff_eq, hinj.eq_iff]

theorem comparator_lt_trans (p q r : Value) (hpq : cmp p q = .lt) (hqr : cmp q r = .lt) : cmp p r = .lt := by
  rw [h, compare_lt_iff_lt] at *
  exact hpq.trans hqr

end order

/-- Nothing is below min in the signed order (R132). -/
theorem scmp_signedMin_ne_gt (v : Value) : scmp signedMin v ≠ .gt := by
  rw [scmp_eq, compare_le_iff_le]
  exact BitVec.le_toInt v

/-- Nothing is above max in the signed order (R132). -/
theorem scmp_signedMax_ne_gt (v : Value) : scmp v signedMax ≠ .gt := by
  rw [scmp_eq, compare_le_iff_le]
  exact Int.le_sub_one_of_lt BitVec.toInt_lt

end Sys2Proof.Machine
end

section
/-! The statements of 42_compare.md. -/

namespace Sys2Proof.Machine

/-- Settles O13: the S bit selects the row, and the command completes with the comparison of the two readings. -/
theorem compareResults : Obligations.CompareResults :=
  ⟨fun _ h hS => decodeWord_of_hasOpcode_unsigned h hS rfl, fun _ h hS => decodeWord_of_hasOpcode_signed h hS rfl,
    fun rd rs1 rs2 s => compareResults_of_exec (exec_cmpU rd rs1 rs2 s),
    fun rd rs1 rs2 s => compareResults_of_exec (exec_cmpS rd rs1 rs2 s)⟩

/-- Settles O14: both comparators compare an injective reading of the patterns in a linear order. -/
theorem comparatorOrderLaws : Obligations.ComparatorOrderLaws :=
  ⟨fun p q => ⟨comparator_gt_iff_lt ucmp_eq p q, comparator_eq_iff ucmp_eq (fun _ _ => BitVec.eq_of_toNat_eq) p q⟩,
    fun p q => ⟨comparator_gt_iff_lt scmp_eq p q, comparator_eq_iff scmp_eq (fun _ _ => BitVec.eq_of_toInt_eq) p q⟩,
    comparator_lt_trans ucmp_eq, comparator_lt_trans scmp_eq,
    fun v => ⟨scmp_signedMin_ne_gt v, scmp_signedMax_ne_gt v⟩,
    fun rd rs1 rs2 s => compare_sign_of_exec (exec_cmpS rd rs1 rs2 s),
    fun rd rs1 rs2 s => compare_sign_of_exec ((compare_natCast _ _).symm ▸ exec_cmpU rd rs1 rs2 s)⟩

end Sys2Proof.Machine
end

section
/-! SUPPORT. MUL completes with the product and POW with the power of the unsigned readings, modulo 2^128 (R141, R144). -/

namespace Sys2Proof.Machine

section arms

variable (rd rs1 rs2 : Reg) (s : State)

theorem exec_mul : exec (.mul rd rs1 rs2) s =
    completeReg rd (BitVec.ofNat 128 ((readReg rs1 s).toNat * (readReg rs2 s).toNat)) s :=
  congrArg (completeReg rd · s) ((mul128_eq (readReg rs1 s) (readReg rs2 s)).trans BitVec.mul_def)

theorem exec_pow : exec (.pow rd rs1 rs2) s =
    completeReg rd (BitVec.ofNat 128 ((readReg rs1 s).toNat ^ (readReg rs2 s).toNat)) s :=
  congrArg (completeReg rd · s) (pow128_eq (readReg rs1 s) (readReg rs2 s))

end arms

end Sys2Proof.Machine
end

section
/-! The statements of 43_multiply.md. -/

namespace Sys2Proof.Machine

/-- Settles O15: OP 0x0B is one row of the table whatever S is, and the schoolbook rows give the product. -/
theorem multiplyResult : Obligations.MultiplyResult :=
  ⟨fun _ h => decodeWord_of_hasOpcode h rfl, fun rd rs1 rs2 s => writesReg_of_exec (exec_mul rd rs1 rs2 s)⟩

/-- Settles O16: OP 0x0F is one row of the table whatever S is, and the power unit gives `u(a)^u(b)`, with `a^0 = 1`. -/
theorem powerResult : Obligations.PowerResult :=
  ⟨fun _ h => decodeWord_of_hasOpcode h rfl, fun rd rs1 rs2 s => writesReg_of_exec (exec_pow rd rs1 rs2 s)⟩

end Sys2Proof.Machine
end

section
/-! SUPPORT. The zero test that DIV, REM and DIVREM share, and what each of them completes with: the quotient and the remainder
of the unsigned readings, or of the signed ones rounded toward zero (R152 to R156). -/

namespace Sys2Proof.Machine

/-! ### The engine behind its zero test -/

/-- What a division command computes by the divisor `b`: DIVISION_BY_ZERO where `b` is zero, else `v` (R152). -/
def unlessZero {α : Type} (b : Value) (v : α) : Except ErrorCode α :=
  if b = 0 then .error .divisionByZero else .ok v

section engine

variable (a b : Value) (qr : Value × Value)

@[simp] theorem quotientOf_unlessZero : quotientOf (unlessZero b qr) = unlessZero b qr.1 := by
  unfold unlessZero
  split <;> rfl

@[simp] theorem remainderOf_unlessZero : remainderOf (unlessZero b qr) = unlessZero b qr.2 := by
  unfold unlessZero
  split <;> rfl

theorem divideRule_unsigned : divideRule false a b = unlessZero b (a / b, a % b) := by
  unfold divideRule unlessZero
  split
  case isTrue => rfl
  case isFalse hb => exact congrArg Except.ok (udiv_eq a b hb)

theorem divideRule_signed : divideRule true a b =
    unlessZero b (BitVec.ofInt 128 (a.toInt.tdiv b.toInt), BitVec.ofInt 128 (a.toInt.tmod b.toInt)) := by
  unfold divideRule unlessZero
  split
  case isTrue => rfl
  case isFalse hb => exact congrArg Except.ok (sdiv_eq a b hb)

end engine

/-! ### The completion of each command -/

section arms

variable (rd rd2 rs1 rs2 : Reg) (s : State)

theorem exec_divU : exec (.divU rd rs1 rs2) s = completeRule rd (unlessZero (readReg rs2 s)
    (BitVec.ofNat 128 ((readReg rs1 s).toNat / (readReg rs2 s).toNat))) s := by
  change completeRule rd (quotientOf (divideRule false (readReg rs1 s) (readReg rs2 s))) s = _
  rw [divideRule_unsigned, quotientOf_unlessZero, BitVec.udiv_def]

theorem exec_divS : exec (.divS rd rs1 rs2) s = completeRule rd (unlessZero (readReg rs2 s)
    (BitVec.ofInt 128 ((readReg rs1 s).toInt.tdiv (readReg rs2 s).toInt))) s := by
  change completeRule rd (quotientOf (divideRule true (readReg rs1 s) (readReg rs2 s))) s = _
  rw [divideRule_signed, quotientOf_unlessZero]

theorem exec_remU : exec (.remU rd rs1 rs2) s = completeRule rd (unlessZero (readReg rs2 s)
    (BitVec.ofNat 128 ((readReg rs1 s).toNat % (readReg rs2 s).toNat))) s := by
  change completeRule rd (remainderOf (divideRule false (readReg rs1 s) (readReg rs2 s))) s = _
  rw [divideRule_unsigned, remainderOf_unlessZero, BitVec.umod_def]

theorem exec_remS : exec (.remS rd rs1 rs2) s = completeRule rd (unlessZero (readReg rs2 s)
    (BitVec.ofInt 128 ((readReg rs1 s).toInt.tmod (readReg rs2 s).toInt))) s := by
  change completeRule rd (remainderOf (divideRule true (readReg rs1 s) (readReg rs2 s))) s = _
  rw [divideRule_signed, remainderOf_unlessZero]

theorem exec_divremU : exec (.divremU rd rd2 rs1 rs2) s =
    completePair rd rd2 (unlessZero (readReg rs2 s)
      (readReg rs1 s / readReg rs2 s, readReg rs1 s % readReg rs2 s)) s :=
  congrArg (completePair rd rd2 · s) (divideRule_unsigned (readReg rs1 s) (readReg rs2 s))

theorem exec_divremS : exec (.divremS rd rd2 rs1 rs2) s =
    completePair rd rd2 (unlessZero (readReg rs2 s)
      (BitVec.ofInt 128 ((readReg rs1 s).toInt.tdiv (readReg rs2 s).toInt),
        BitVec.ofInt 128 ((readReg rs1 s).toInt.tmod (readReg rs2 s).toInt))) s :=
  congrArg (completePair rd rd2 · s) (divideRule_signed (readReg rs1 s) (readReg rs2 s))

end arms

/-! ### Completions with the outcome of a division -/

section completion

variable {i : Instr} {rd rd2 : Reg} {b v q r : Value} {s : State}

/-- DIV and REM: the error alone, or the result in x[rd] (R153, R154). -/
theorem divideResults_of_exec (h : exec i s = completeRule rd (unlessZero b v) s) :
    if b = 0 then ∃ t, exec i s = .next t ∧ ErrorOnly 1#4 s t
    else ∃ t, exec i s = .next t ∧ WritesReg rd v s t := by
  unfold unlessZero at h
  split at h
  case isTrue hb =>
    rw [if_pos hb]
    exact ⟨_, h, raiseError_spec .divisionByZero s⟩
  case isFalse hb =>
    rw [if_neg hb]
    exact writesReg_of_exec h

/-- DIVREM: the error alone, or the quotient in x[rd] and, in another register, the remainder in x[rd2]; `reading` is how the
two results are read (R155). -/
theorem divideRemainderResults_of_exec {β : Type} (reading : Value → β)
    (h : exec i s = completePair rd rd2 (unlessZero b (q, r)) s) :
    if b = 0 then ∃ t, exec i s = .next t ∧ ErrorOnly 1#4 s t
    else ∃ t, exec i s = .next t ∧ reading (readReg rd t) = reading q ∧
      (rd2 ≠ rd → reading (readReg rd2 t) = reading r) ∧
      RegsKeptBut [rd, rd2] s t ∧ t.cmpres = s.cmpres ∧ TextKept s t ∧ CompletedWith 0#4 t ∧ CompletionFrame s t := by
  unfold unlessZero at h
  split at h
  case isTrue hb =>
    rw [if_pos hb]
    exact ⟨_, h, raiseError_spec .divisionByZero s⟩
  case isFalse hb =>
    rw [if_neg hb]
    obtain ⟨t, ht, hw⟩ := completeReg_spec rd q (writeReg rd2 r s)
    have hremainder (hne : rd2 ≠ rd) : readReg rd2 t = r :=
      (hw.others rd2 (mt List.mem_singleton.mp hne)).trans (readReg_writeReg_same rd2 r s)
    have hothers : RegsKeptBut [rd, rd2] s t := by
      intro p hp
      obtain ⟨hrd, hrd2⟩ : p ≠ rd ∧ p ≠ rd2 := by simpa using hp
      exact (hw.others p (mt List.mem_singleton.mp hrd)).trans (readReg_writeReg_ne rd2 p r s hrd2)
    exact ⟨t, h.trans ht, congrArg reading hw.result, fun hne => congrArg reading (hremainder hne), hothers, hw.cmpres,
      ⟨hw.text.strlen, hw.text.strbuf⟩, hw.status,
      ⟨hw.frame.cmd, hw.frame.inReset, hw.frame.wait, hw.frame.pending, hw.frame.replies, hw.frame.freeIndex⟩⟩

/-- Where quotient and remainder meet the division identity modulo 2^128, the block's own units do (R157). -/
theorem divisionIdentity_of_exec {a : Value} (h : exec i s = completePair rd rd2 (unlessZero b (q, r)) s)
    (hb : b ≠ 0) (hne : rd2 ≠ rd) (hid : q * b + r = a) :
    ∃ t, exec i s = .next t ∧ add128 (mul128 (readReg rd t) b) (readReg rd2 t) 0 = a := by
  have hresults := divideRemainderResults_of_exec id h
  rw [if_neg hb] at hresults
  obtain ⟨t, ht, hq, hr, -⟩ := hresults
  have hq : readReg rd t = q := hq
  have hr : readReg rd2 t = r := hr hne
  refine ⟨t, ht, ?_⟩
  rw [hq, hr, mul128_eq, add128_eq _ _ _ (Nat.zero_le 1), BitVec.add_zero, hid]

end completion

/-! ### The division identity modulo 2^128 (R157) -/

section identity

variable (a b : Value)

theorem udiv_mul_add_umod : a / b * b + a % b = a := by
  apply BitVec.eq_of_toNat_eq
  rw [BitVec.toNat_add, BitVec.toNat_mul, Nat.mod_add_mod, BitVec.toNat_udiv, BitVec.toNat_umod, Nat.div_add_mod',
    Nat.mod_eq_of_lt a.isLt]

/-- No exception for `(min, -1)`: the integers meet the identity, and reduction to 128 bits keeps it. -/
theorem ofInt_tdiv_mul_add_ofInt_tmod :
    BitVec.ofInt 128 (a.toInt.tdiv b.toInt) * b + BitVec.ofInt 128 (a.toInt.tmod b.toInt) = a :=
  calc
    _ = BitVec.ofInt 128 (a.toInt.tdiv b.toInt) * BitVec.ofInt 128 b.toInt + BitVec.ofInt 128 (a.toInt.tmod b.toInt) := by
      rw [BitVec.ofInt_toInt (x := b)]
    _ = BitVec.ofInt 128 (a.toInt.tdiv b.toInt * b.toInt + a.toInt.tmod b.toInt) := by
      rw [BitVec.ofInt_add, BitVec.ofInt_mul]
    _ = a := by rw [Int.tdiv_mul_add_tmod, BitVec.ofInt_toInt]

end identity

end Sys2Proof.Machine
end

section
/-! The statements of 44_divide.md. -/

namespace Sys2Proof.Machine

/-- Settles O17: the S bit selects the row, and the engine behind its zero test gives the quotient. -/
theorem divideResults : Obligations.DivideResults :=
  ⟨fun _ h hS => decodeWord_of_hasOpcode_unsigned h hS rfl, fun _ h hS => decodeWord_of_hasOpcode_signed h hS rfl,
    fun rd rs1 rs2 s => divideResults_of_exec (exec_divU rd rs1 rs2 s),
    fun rd rs1 rs2 s => divideResults_of_exec (exec_divS rd rs1 rs2 s)⟩

/-- Settles O18: the S bit selects the row, and the engine behind its zero test gives the remainder. -/
theorem remainderResults : Obligations.RemainderResults :=
  ⟨fun _ h hS => decodeWord_of_hasOpcode_unsigned h hS rfl, fun _ h hS => decodeWord_of_hasOpcode_signed h hS rfl,
    fun rd rs1 rs2 s => divideResults_of_exec (exec_remU rd rs1 rs2 s),
    fun rd rs1 rs2 s => divideResults_of_exec (exec_remS rd rs1 rs2 s)⟩

/-- Settles O19: the S bit selects the row, and the quotient is written over the remainder where `rd = rd2`. -/
theorem divideRemainderResults : Obligations.DivideRemainderResults :=
  ⟨fun _ h hS => decodeWord_of_hasOpcode_unsigned h hS rfl, fun _ h hS => decodeWord_of_hasOpcode_signed h hS rfl,
    fun rd rd2 rs1 rs2 s => divideRemainderResults_of_exec BitVec.toNat (exec_divremU rd rd2 rs1 rs2 s),
    fun rd rd2 rs1 rs2 s => divideRemainderResults_of_exec id (exec_divremS rd rd2 rs1 rs2 s)⟩

/-- Settles O20: both pairs meet the identity modulo 2^128, where the multiplier and the adder compute. -/
theorem divisionIdentity : Obligations.DivisionIdentity :=
  fun rd rd2 rs1 rs2 s hb hne =>
    ⟨divisionIdentity_of_exec (exec_divremU rd rd2 rs1 rs2 s) hb hne (udiv_mul_add_umod _ _),
      divisionIdentity_of_exec (exec_divremS rd rd2 rs1 rs2 s) hb hne (ofInt_tdiv_mul_add_ofInt_tmod _ _)⟩

end Sys2Proof.Machine
end

section
/-! SUPPORT. The integer root as an adjoint of the power (R170, R173), and the rules of ROOT and SQRT as the tests in their order
in front of it (R171, R174, R229). -/

namespace Sys2Proof.Machine

/-! ### The integer root -/

section root

variable {v w n : Nat}

/-- The bracket of R170 says which `r` the root is: it bounds exactly those whose power fits. -/
theorem le_iroot_iff (hn : 1 ≤ n) (hv : v < 2 ^ 128) (r : Nat) : r ≤ iroot v n ↔ r ^ n ≤ v := by
  obtain ⟨hle, hlt⟩ := iroot_spec v n hn hv
  constructor
  case mp => exact fun hr => (Nat.pow_le_pow_left hr n).trans hle
  case mpr => exact fun hr => Nat.le_of_lt_succ (lt_of_pow_lt_pow_left' n (hr.trans_lt hlt))

theorem iroot_le_iroot_of_le (hn : 1 ≤ n) (hw : w < 2 ^ 128) (h : v ≤ w) : iroot v n ≤ iroot w n :=
  (le_iroot_iff hn hw _).mpr ((iroot_spec v n hn (h.trans_lt hw)).1.trans h)

theorem iroot_degree_succ_le (hn : 1 ≤ n) (hv : v < 2 ^ 128) : iroot v (n + 1) ≤ iroot v n := by
  rcases Nat.eq_zero_or_pos (iroot v (n + 1)) with h0 | hpos
  · exact h0 ▸ Nat.zero_le _
  · refine (le_iroot_iff hn hv _).mpr ?_
    calc iroot v (n + 1) ^ n ≤ iroot v (n + 1) ^ (n + 1) := Nat.pow_le_pow_right hpos n.le_succ
      _ ≤ v := (iroot_spec v (n + 1) (Nat.le_add_left 1 n) hv).1

/-- The result never overflows (R171). -/
theorem toNat_ofNat_iroot (hn : 1 ≤ n) (hv : v < 2 ^ 128) : (BitVec.ofNat 128 (iroot v n)).toNat = iroot v n :=
  (BitVec.toNat_ofNat _ _).trans (Nat.mod_eq_of_lt ((iroot_le v n hn hv).trans_lt hv))

end root

/-! ### The rules of ROOT and SQRT -/

section rules

variable (a b : Value)

theorem rootRule_unsigned : rootRule false a b =
    if b.toNat = 0 then .error .invalidRootDegree else .ok (BitVec.ofNat 128 (iroot a.toNat b.toNat)) := by
  unfold rootRule rootDegree radicand
  by_cases hdegree : b.toNat = 0 <;> simp [hdegree]

theorem rootRule_signed : rootRule true a b =
    if b.toInt ≤ 0 then .error .invalidRootDegree
    else if a.toInt < 0 then .error .negativeRadicand
    else .ok (BitVec.ofNat 128 (iroot a.toInt.toNat b.toInt.toNat)) := by
  unfold rootRule rootDegree radicand
  by_cases hdegree : b.toInt ≤ 0
  case pos => simp [hdegree]
  case neg => by_cases hradicand : a.toInt < 0 <;> simp [hdegree, hradicand]

theorem sqrtRule_signed : sqrtRule true a =
    if a.toInt < 0 then .error .negativeRadicand else .ok (BitVec.ofNat 128 (iroot a.toInt.toNat 2)) := by
  unfold sqrtRule radicand
  by_cases hradicand : a.toInt < 0 <;> simp [hradicand]

theorem toNat_toInt_lt : a.toInt.toNat < 2 ^ 128 := by
  have := a.toInt_lt
  omega

end rules

/-! ### The completion of each command -/

section arms

variable (rd rs1 rs2 : Reg) (s : State)

theorem exec_rootU : exec (.rootU rd rs1 rs2) s = completeRule rd
    (if (readReg rs2 s).toNat = 0 then .error .invalidRootDegree
    else .ok (BitVec.ofNat 128 (iroot (readReg rs1 s).toNat (readReg rs2 s).toNat))) s :=
  congrArg (completeRule rd · s) (rootRule_unsigned (readReg rs1 s) (readReg rs2 s))

theorem exec_rootS : exec (.rootS rd rs1 rs2) s = completeRule rd
    (if (readReg rs2 s).toInt ≤ 0 then .error .invalidRootDegree
    else if (readReg rs1 s).toInt < 0 then .error .negativeRadicand
    else .ok (BitVec.ofNat 128 (iroot (readReg rs1 s).toInt.toNat (readReg rs2 s).toInt.toNat))) s :=
  congrArg (completeRule rd · s) (rootRule_signed (readReg rs1 s) (readReg rs2 s))

theorem exec_sqrtU : exec (.sqrtU rd rs1) s =
    completeRule rd (.ok (BitVec.ofNat 128 (iroot (readReg rs1 s).toNat 2))) s := rfl

theorem exec_sqrtS : exec (.sqrtS rd rs1) s = completeRule rd
    (if (readReg rs1 s).toInt < 0 then .error .negativeRadicand
    else .ok (BitVec.ofNat 128 (iroot (readReg rs1 s).toInt.toNat 2))) s :=
  congrArg (completeRule rd · s) (sqrtRule_signed (readReg rs1 s))

end arms

/-! ### Completions behind a test, and completions with a root -/

section completion

variable {i : Instr} {rd : Reg} {s : State}

/-- A rule that begins with a test: the error alone where it fails, else what the rest of the rule gives (R222, R229). -/
theorem errorOnly_or_of_exec {p Rest : Prop} [Decidable p] {e : ErrorCode} {r : Except ErrorCode Value}
    (h : exec i s = completeRule rd (if p then .error e else r) s)
    (hrest : ¬p → exec i s = completeRule rd r s → Rest) :
    if p then ∃ t, exec i s = .next t ∧ ErrorOnly e.code s t else Rest := by
  split at h
  case isTrue hp =>
    rw [if_pos hp]
    exact ⟨_, h, raiseError_spec e s⟩
  case isFalse hp =>
    rw [if_neg hp]
    exact hrest hp h

theorem writesReg_root_of_exec {v n : Nat} (hn : 1 ≤ n) (hv : v < 2 ^ 128)
    (h : exec i s = completeRule rd (.ok (BitVec.ofNat 128 (iroot v n))) s) :
    ∃ t r, exec i s = .next t ∧ WritesReg rd r s t ∧ r.toNat ^ n ≤ v ∧ v < (r.toNat + 1) ^ n := by
  obtain ⟨t, ht, hw⟩ := writesReg_of_exec h
  refine ⟨t, _, ht, hw, ?_⟩
  rw [toNat_ofNat_iroot hn hv]
  exact iroot_spec v n hn hv

end completion

end Sys2Proof.Machine
end

section
/-! The statements of 45_root.md. -/

namespace Sys2Proof.Machine

/-- Settles O21: the S bit selects the row, and the root stands behind the test of the degree and, for S = 1, the one of the
radicand. -/
theorem rootResults : Obligations.RootResults :=
  ⟨fun _ h hS => decodeWord_of_hasOpcode_unsigned h hS rfl, fun _ h hS => decodeWord_of_hasOpcode_signed h hS rfl,
    fun rd rs1 rs2 s => errorOnly_or_of_exec (exec_rootU rd rs1 rs2 s) fun hdegree h =>
      writesReg_root_of_exec (Nat.one_le_iff_ne_zero.mpr hdegree) (readReg rs1 s).isLt h,
    fun rd rs1 rs2 s => errorOnly_or_of_exec (exec_rootS rd rs1 rs2 s) fun hdegree h => errorOnly_or_of_exec h fun _ h =>
      writesReg_root_of_exec (by omega) (toNat_toInt_lt (readReg rs1 s)) h⟩

/-- Settles O22: SQRT is the root of degree 2; a radicand that is not negative is its own `toNat`. -/
theorem squareRootResults : Obligations.SquareRootResults := by
  refine ⟨fun _ h hS => decodeWord_of_hasOpcode_unsigned h hS rfl,
    fun _ h hS => decodeWord_of_hasOpcode_signed h hS rfl,
    fun rd rs1 s => writesReg_root_of_exec one_le_two (readReg rs1 s).isLt (exec_sqrtU rd rs1 s),
    fun rd rs1 s => errorOnly_or_of_exec (exec_sqrtS rd rs1 s) fun hradicand h => ?_⟩
  obtain ⟨t, r, ht, hw, hle, hlt⟩ := writesReg_root_of_exec one_le_two (toNat_toInt_lt (readReg rs1 s)) h
  have hcast : ((readReg rs1 s).toInt.toNat : Int) = (readReg rs1 s).toInt := Int.toNat_of_nonneg (not_lt.mp hradicand)
  refine ⟨t, r, ht, hw, ?_⟩
  rw [← hcast]
  exact_mod_cast And.intro hle hlt

/-- Settles O23: the bracket is the root finder's, and the two orders follow from it. -/
theorem rootLaws : Obligations.RootLaws := by
  intro v w n hv hw hn
  obtain ⟨hle, hlt⟩ := iroot_spec v n hn hv
  exact ⟨hle, hlt, iroot_le_iroot_of_le hn hw, iroot_degree_succ_le hn hv⟩

end Sys2Proof.Machine
end

section
/-! SUPPORT. The digits of a number in a base, as the block writes them: how many there are (R184), what a text of them says
(R182, R183), and what PARSE makes of such a text (R188, R190). -/

namespace Sys2Proof.Machine

/-! ### The digits of a number in a base (R183) -/

theorem one_le_length_positional (m base : Nat) : 1 ≤ (positional m base).length := by
  unfold positional
  split
  case isTrue => exact le_rfl
  case isFalse hm =>
    rw [List.length_reverse]
    exact List.length_pos_of_ne_nil (Nat.digits_ne_nil_iff_ne_zero.mpr hm)

section positional

variable {m base : Nat} (hb : 2 ≤ base)
include hb

theorem lt_of_mem_positional {d : Nat} (hd : d ∈ positional m base) : d < base := by
  unfold positional at hd
  split at hd
  case isTrue => exact (List.mem_singleton.mp hd) ▸ (by omega : 0 < base)
  case isFalse => exact Nat.digits_lt_base hb (List.mem_reverse.mp hd)

/-- The number of digits is the least that holds the number, and never 0 (R184). -/
theorem length_positional_le_iff {j : Nat} (hj : 1 ≤ j) : (positional m base).length ≤ j ↔ m < base ^ j := by
  unfold positional
  split
  case isTrue hm => exact iff_of_true hj (hm ▸ Nat.pow_pos (by omega))
  case isFalse => rw [List.length_reverse, Nat.digits_length_le_iff hb]

theorem length_positional_le (hm : m < 2 ^ 128) : (positional m base).length ≤ 128 :=
  (length_positional_le_iff hb (by decide)).mpr (hm.trans_le (Nat.pow_le_pow_left hb 128))

theorem render_eq_map_positional (hm : m < 2 ^ 128) : render m base = (positional m base).map digitCode := by
  rw [render_eq m base hb hm]
  unfold positional
  split
  case isTrue => rfl
  case isFalse => exact List.map_reverse.symm

theorem length_render (hm : m < 2 ^ 128) : (render m base).length = (positional m base).length := by
  rw [render_eq_map_positional hb hm, List.length_map]

end positional

theorem ofDigits_reverse_positional (m base : Nat) : Nat.ofDigits base (positional m base).reverse = m := by
  unfold positional
  split
  case isTrue hm => exact Nat.ofDigits_singleton.trans hm.symm
  case isFalse => rw [List.reverse_reverse, Nat.ofDigits_digits]

/-! ### The text of a number (R182, R186) -/

/-- The text of a magnitude: its digits in the alphabet of R182. -/
def digitText (m base : Nat) : List Byte := (positional m base).map fun d => alphabet.getD d 0x00#8

theorem signedText_eq (negative : Bool) (m base : Nat) :
    signedText negative m base = (if negative then [0x2D#8] else []) ++ digitText m base := rfl

/-- The two runs of codes, from 0x30 and from 0x41, are the written-out alphabet (R182). -/
theorem alphabet_getD : ∀ d < 21, alphabet.getD d 0x00#8 = digitCode d := by decide

theorem alphabet_getD_ne_minus : ∀ d < 21, alphabet.getD d 0x00#8 ≠ 0x2D#8 := by decide

theorem toNat_alphabet_getD : ∀ d < 10, (alphabet.getD d 0x00#8).toNat = 0x30 + d := by decide

@[simp] theorem length_digitText (m base : Nat) : (digitText m base).length = (positional m base).length :=
  List.length_map _

section text

variable {m base : Nat} (hb : 2 ≤ base)
include hb

theorem render_eq_digitText (hbase : base ≤ 21) (hm : m < 2 ^ 128) : render m base = digitText m base := by
  rw [render_eq_map_positional hb hm]
  exact List.map_congr_left fun d hd => (alphabet_getD d ((lt_of_mem_positional hb hd).trans_le hbase)).symm

theorem length_signedText_le (negative : Bool) (hm : m < 2 ^ 128) :
    (signedText negative m base).length ≤ strbufSize := by
  have hdigits := length_positional_le hb hm
  rw [signedText_eq, List.length_append, length_digitText, strbufSize]
  cases negative <;> simp <;> omega

/-- No digit is a '-' (R182), so the sign of a text is the one it was given. -/
theorem head?_digitText_ne_minus (hbase : base ≤ 21) : (digitText m base).head? ≠ some 0x2D#8 := by
  intro hhead
  obtain ⟨d, hd, hchar⟩ := List.mem_map.mp (List.mem_of_mem_head? hhead)
  exact alphabet_getD_ne_minus d ((lt_of_mem_positional hb hd).trans_le hbase) hchar

theorem hasMinus_signedText (hbase : base ≤ 21) (negative : Bool) :
    hasMinus (signedText negative m base) = negative := by
  cases negative
  case true => rfl
  case false => exact beq_false_of_ne (head?_digitText_ne_minus hb hbase)

theorem afterSign_signedText (hbase : base ≤ 21) (negative : Bool) :
    afterSign (signedText negative m base) = digitText m base := by
  unfold afterSign
  rw [hasMinus_signedText hb hbase]
  cases negative <;> rfl

theorem digitsBelow_digitText (hbase : base ≤ 10) : DigitsBelow base (digitText m base) := by
  intro c hc
  obtain ⟨d, hd, rfl⟩ := List.mem_map.mp hc
  have hlt := lt_of_mem_positional hb hd
  have hcode := toNat_alphabet_getD d (hlt.trans_le hbase)
  omega

theorem textNumber_digitText (hbase : base ≤ 10) : textNumber base (digitText m base) = m := by
  have hvalues : (digitText m base).map (fun c => c.toNat - 0x30) = positional m base := by
    rw [digitText, List.map_map]
    refine (List.map_congr_left fun d hd => ?_).trans (List.map_id _)
    change (alphabet.getD d 0x00#8).toNat - 0x30 = d
    rw [toNat_alphabet_getD d ((lt_of_mem_positional hb hd).trans_le hbase), Nat.add_sub_cancel_left]
  rw [textNumber, List.map_reverse, hvalues, ofDigits_reverse_positional]

end text

/-! ### What PARSE makes of a text (R188, R190) -/

section parse

variable (base : Nat) (text : List Byte)

theorem digitsBelow_iff : DigitsBelow base text ↔ text.all (isDigitOf base) = true := by
  simp only [DigitsBelow, isDigitOf, List.all_eq_true, Bool.and_eq_true, decide_eq_true_eq, and_assoc]

/-- The accumulation of R190 is the positional value. -/
theorem digitsValue_eq_textNumber : digitsValue base 0 text = textNumber base text := by
  rw [textNumber, Nat.ofDigits_eq_foldr, List.foldr_map, List.foldr_reverse, digitsValue]
  congr 1
  funext n c
  simp [Nat.mul_comm, Nat.add_comm]

/-- A leading '-' is taken off before the digits are read, and negates their value (R190). -/
theorem parseText_eq :
    parseText base text = (parseDigits base 0 (afterSign text)).map fun v => if hasMinus text then -v else v := by
  cases text with
  | nil => rfl
  | cons c cs =>
    rw [parseText]
    by_cases hc : c = minusCode
    case pos =>
      subst hc
      rw [if_pos rfl]
      change _ = (parseDigits base 0 cs).map fun v => -v
      cases parseDigits base 0 cs with
      | ok v => exact congrArg Except.ok (neg128_eq v)
      | error e => rfl
    case neg =>
      have hminus : hasMinus (c :: cs) = false := beq_false_of_ne (mt Option.some.inj hc)
      rw [if_neg hc, afterSign, hminus]
      change _ = (parseDigits base 0 (c :: cs)).map id
      cases parseDigits base 0 (c :: cs) <;> rfl

variable {base text}

theorem parseText_of_digitsBelow (h : DigitsBelow base (afterSign text)) :
    parseText base text = .ok (if hasMinus text then -BitVec.ofNat 128 (textNumber base (afterSign text))
      else BitVec.ofNat 128 (textNumber base (afterSign text))) := by
  rw [parseText_eq, parseDigits_ok base _ 0 0 rfl ((digitsBelow_iff _ _).mp h), digitsValue_eq_textNumber]
  rfl

theorem parseText_of_malformed (h : ¬DigitsBelow base (afterSign text)) :
    parseText base text = .error .malformedLiteral := by
  have hall : (afterSign text).all (isDigitOf base) = false := Bool.eq_false_of_not_eq_true (mt (digitsBelow_iff _ _).mpr h)
  rw [parseText_eq, parseDigits_error base _ 0 hall]
  rfl

theorem mem_afterSign {c : Byte} (hc : c ∈ text) (hne : c ≠ 0x2D#8) : c ∈ afterSign text := by
  unfold afterSign
  split
  case isTrue hminus =>
    obtain ⟨cs, rfl⟩ := List.head?_eq_some_iff.mp (beq_iff_eq.mp hminus)
    exact (List.mem_cons.mp hc).resolve_left hne
  case isFalse => exact hc

/-- A letter is neither a sign nor one of the decimal digits that PARSE accepts, whatever the base (R188, R191). -/
theorem not_digitsBelow_of_letter {c : Byte} (hc : c ∈ text) (hletter : 0x41 ≤ c.toNat) :
    ¬DigitsBelow base (afterSign text) := by
  intro hdigits
  have hne : c ≠ 0x2D#8 := by
    rintro rfl
    exact absurd hletter (by decide)
  obtain ⟨-, hdecimal, -⟩ := hdigits c (mem_afterSign hc hne)
  omega

end parse

/-! ### The rules behind the base test (R180, R229) -/

section rules

variable (a b : Value)

theorem digitsRule_eq (signed : Bool) : digitsRule signed a b =
    if b.toNat < 2 ∨ b.toNat > 21 then .error .invalidBase
    else .ok (BitVec.ofNat 128 (positional (convertedNumber signed a) b.toNat).length) := by
  unfold digitsRule
  rcases textBase_cases b with ⟨hok, hlo, hhi⟩ | ⟨herror, hbad⟩
  · rw [hok, if_neg (by omega), ← length_render hlo (convertedNumber_lt signed a)]
  · rw [herror, if_pos hbad]

theorem tostrRule_eq (signed : Bool) : tostrRule signed a b =
    if b.toNat < 2 ∨ b.toNat > 21 then .error .invalidBase
    else .ok (signedText (convertedSign signed a) (convertedNumber signed a) b.toNat) := by
  unfold tostrRule
  rcases textBase_cases b with ⟨hok, hlo, hhi⟩ | ⟨herror, hbad⟩
  · rw [hok, if_neg (by omega), signedText_eq, ← render_eq_digitText hlo hhi (convertedNumber_lt signed a)]
    rfl
  · rw [herror, if_pos hbad]

theorem parseRule_eq (len : Byte) (buf : Memory) : parseRule len buf b =
    if b.toNat < 2 ∨ b.toNat > 21 then .error .invalidBase
    else if len.toNat > 132 then .error .malformedLiteral
    else parseText b.toNat (buf.bytes len.toNat) := by
  unfold parseRule
  rcases textBase_cases b with ⟨hok, hlo, hhi⟩ | ⟨herror, hbad⟩
  · rw [hok, if_neg (by omega : ¬(b.toNat < 2 ∨ b.toNat > 21))]
    rfl
  · rw [herror, if_pos hbad]

theorem natAbs_toInt_lt : a.toInt.natAbs < 2 ^ 128 := magnitude_toNat a ▸ (magnitude a).isLt

theorem convertedNumber_signed : convertedNumber true a = a.toInt.natAbs := convertedNumber_eq true a

theorem convertedSign_signed : convertedSign true a = decide (a.toInt < 0) :=
  Bool.eq_iff_iff.mpr ((isNeg_iff a).trans decide_eq_true_iff.symm)

/-- The sign and the magnitude that TOSTR.S renders determine the value (R181). -/
theorem neg_or_ofNat_natAbs :
    (if decide (a.toInt < 0) then -BitVec.ofNat 128 a.toInt.natAbs else BitVec.ofNat 128 a.toInt.natAbs) = a := by
  rw [← magnitude_toNat, BitVec.ofNat_toNat, BitVec.setWidth_eq, magnitude, ← convertedSign_signed]
  change (if isNeg a then _ else _) = a
  cases isNeg a
  case true => exact (congrArg (-·) (neg128_eq a)).trans (BitVec.neg_neg)
  case false => rfl

end rules

/-! ### The completion of each command -/

section arms

variable (rd rs1 rs2 : Reg) (s : State)

theorem exec_digitsU : exec (.digitsU rd rs1 rs2) s = completeRule rd
    (if (readReg rs2 s).toNat < 2 ∨ (readReg rs2 s).toNat > 21 then .error .invalidBase
    else .ok (BitVec.ofNat 128 (positional (readReg rs1 s).toNat (readReg rs2 s).toNat).length)) s :=
  congrArg (completeRule rd · s) (digitsRule_eq (readReg rs1 s) (readReg rs2 s) false)

theorem exec_digitsS : exec (.digitsS rd rs1 rs2) s = completeRule rd
    (if (readReg rs2 s).toNat < 2 ∨ (readReg rs2 s).toNat > 21 then .error .invalidBase
    else .ok (BitVec.ofNat 128 (positional (readReg rs1 s).toInt.natAbs (readReg rs2 s).toNat).length)) s := by
  rw [← convertedNumber_signed, ← digitsRule_eq]
  rfl

theorem exec_tostrU : exec (.tostrU rs1 rs2) s = completeText
    (if (readReg rs2 s).toNat < 2 ∨ (readReg rs2 s).toNat > 21 then .error .invalidBase
    else .ok (signedText false (readReg rs1 s).toNat (readReg rs2 s).toNat)) s :=
  congrArg (completeText · s) (tostrRule_eq (readReg rs1 s) (readReg rs2 s) false)

theorem exec_tostrS : exec (.tostrS rs1 rs2) s = completeText
    (if (readReg rs2 s).toNat < 2 ∨ (readReg rs2 s).toNat > 21 then .error .invalidBase
    else .ok (signedText (decide ((readReg rs1 s).toInt < 0)) (readReg rs1 s).toInt.natAbs (readReg rs2 s).toNat)) s := by
  rw [← convertedNumber_signed, ← convertedSign_signed, ← tostrRule_eq]
  rfl

theorem exec_parse : exec (.parse rd rs2) s = completeRule rd
    (if (readReg rs2 s).toNat < 2 ∨ (readReg rs2 s).toNat > 21 then .error .invalidBase
    else if s.strlen.toNat > 132 then .error .malformedLiteral
    else parseText (readReg rs2 s).toNat (parsedText s)) s :=
  congrArg (completeRule rd · s) (parseRule_eq (readReg rs2 s) s.strlen s.strbuf)

end arms

/-! ### Completions with a digit count, and completions with a text -/

section completion

variable {i : Instr} {rd : Reg} {m base : Nat} {s : State}

/-- The count fits the register (R184). -/
theorem toNat_ofNat_length_positional (hb : 2 ≤ base) (hm : m < 2 ^ 128) :
    (BitVec.ofNat 128 (positional m base).length).toNat = (positional m base).length := by
  have hlength := length_positional_le hb hm
  rw [BitVec.toNat_ofNat]
  exact Nat.mod_eq_of_lt (hlength.trans_lt (by decide))

theorem writesReg_digitCount_of_exec (hb : 2 ≤ base) (hm : m < 2 ^ 128)
    (h : exec i s = completeRule rd (.ok (BitVec.ofNat 128 (positional m base).length)) s) :
    ∃ t k, exec i s = .next t ∧ WritesReg rd k s t ∧ 1 ≤ k.toNat ∧ m < base ^ k.toNat ∧
      ∀ j, 1 ≤ j → m < base ^ j → k.toNat ≤ j := by
  obtain ⟨t, ht, hw⟩ := writesReg_of_exec h
  refine ⟨t, _, ht, hw, ?_⟩
  rw [toNat_ofNat_length_positional hb hm]
  have hpos := one_le_length_positional m base
  exact ⟨hpos, (length_positional_le_iff hb hpos).mp le_rfl, fun j hj => (length_positional_le_iff hb hj).mpr⟩

theorem writesText_of_exec {bs : List Byte} (h : exec i s = completeText (.ok bs) s) (hlength : bs.length ≤ strbufSize) :
    ∃ t, exec i s = .next t ∧ WritesText bs s t := by
  rcases completeText_spec (.ok bs) s with ⟨_, hbs, t, ht, hw⟩ | ⟨_, herror, -⟩
  · cases hbs
    exact ⟨t, h.trans ht, hw hlength⟩
  · cases herror

/-- A text behind a test: the error alone where it fails, else what the rest of the rule gives (R186, R222). -/
theorem errorOnly_or_of_exec_text {p Rest : Prop} [Decidable p] {e : ErrorCode} {r : Except ErrorCode (List Byte)}
    (h : exec i s = completeText (if p then .error e else r) s) (hrest : ¬p → exec i s = completeText r s → Rest) :
    if p then ∃ t, exec i s = .next t ∧ ErrorOnly e.code s t else Rest := by
  split at h
  case isTrue hp =>
    rw [if_pos hp]
    exact ⟨_, h, raiseError_spec e s⟩
  case isFalse hp =>
    rw [if_neg hp]
    exact hrest hp h

/-- What TOSTR wrote is what a PARSE after it reads (R186, R190). -/
theorem parsedText_of_writesText {bs : List Byte} {t : State} (hw : WritesText bs s t) (hlength : bs.length ≤ strbufSize) :
    parsedText t = bs := by
  unfold parsedText
  rw [hw.strlen]
  refine List.ext_getElem (by simp) fun k hk hk' => ?_
  rw [List.getElem_map, List.getElem_range, hw.strbuf k (hk'.trans_le hlength), List.getD_eq_getElem _ _ hk']

end completion

/-! ### TOSTR in a base it accepts -/

section tostr

variable (rs1 : Reg) {rs2 : Reg} {s : State} (hlo : 2 ≤ (readReg rs2 s).toNat) (hhi : (readReg rs2 s).toNat ≤ 21)
include hlo hhi

theorem tostrU_writesText : ∃ t, exec (.tostrU rs1 rs2) s = .next t ∧
    WritesText (signedText false (readReg rs1 s).toNat (readReg rs2 s).toNat) s t :=
  writesText_of_exec ((exec_tostrU rs1 rs2 s).trans (by rw [if_neg (by omega)]))
    (length_signedText_le hlo false (readReg rs1 s).isLt)

theorem tostrS_writesText : ∃ t, exec (.tostrS rs1 rs2) s = .next t ∧
    WritesText (signedText (decide ((readReg rs1 s).toInt < 0)) (readReg rs1 s).toInt.natAbs (readReg rs2 s).toNat) s t :=
  writesText_of_exec ((exec_tostrS rs1 rs2 s).trans (by rw [if_neg (by omega)]))
    (length_signedText_le hlo _ (natAbs_toInt_lt (readReg rs1 s)))

/-- Either command renders a sign and a magnitude that determine the value (R181, R186). -/
theorem tostr_writes_value {i : Instr} (hi : i = .tostrS rs1 rs2 ∨ i = .tostrU rs1 rs2) :
    ∃ t negative m, exec i s = .next t ∧ WritesText (signedText negative m (readReg rs2 s).toNat) s t ∧ m < 2 ^ 128 ∧
      (if negative then -BitVec.ofNat 128 m else BitVec.ofNat 128 m) = readReg rs1 s := by
  rcases hi with rfl | rfl
  · obtain ⟨t, ht, hw⟩ := tostrS_writesText rs1 hlo hhi
    exact ⟨t, _, _, ht, hw, natAbs_toInt_lt (readReg rs1 s), neg_or_ofNat_natAbs (readReg rs1 s)⟩
  · obtain ⟨t, ht, hw⟩ := tostrU_writesText rs1 hlo hhi
    exact ⟨t, _, _, ht, hw, (readReg rs1 s).isLt, (BitVec.ofNat_toNat _ _).trans (BitVec.setWidth_eq _)⟩

end tostr

end Sys2Proof.Machine
end

section
/-! The statements of 46_conversion.md. -/

namespace Sys2Proof.Machine

/-- Settles O24: the S bit selects the row, and behind the base test the count is the number of digits of the magnitude. -/
theorem digitsResults : Obligations.DigitsResults :=
  ⟨fun _ h hS => decodeWord_of_hasOpcode_unsigned h hS rfl, fun _ h hS => decodeWord_of_hasOpcode_signed h hS rfl,
    fun rd rs1 rs2 s => errorOnly_or_of_exec (exec_digitsU rd rs1 rs2 s) fun hbase h =>
      writesReg_digitCount_of_exec (by omega) (readReg rs1 s).isLt h,
    fun rd rs1 rs2 s => errorOnly_or_of_exec (exec_digitsS rd rs1 rs2 s) fun hbase h =>
      writesReg_digitCount_of_exec (by omega) (natAbs_toInt_lt (readReg rs1 s)) h⟩

/-- Settles O25: the S bit selects the row, and behind the base test the text is the sign and the digits of the magnitude. -/
theorem toStringResults : Obligations.ToStringResults :=
  ⟨fun _ h hS => decodeWord_of_hasOpcode_unsigned h hS rfl, fun _ h hS => decodeWord_of_hasOpcode_signed h hS rfl,
    fun rs1 rs2 s => errorOnly_or_of_exec_text (exec_tostrU rs1 rs2 s) fun hbase h =>
      writesText_of_exec h (length_signedText_le (by omega) _ (readReg rs1 s).isLt),
    fun rs1 rs2 s => errorOnly_or_of_exec_text (exec_tostrS rs1 rs2 s) fun hbase h =>
      writesText_of_exec h (length_signedText_le (by omega) _ (natAbs_toInt_lt (readReg rs1 s)))⟩

/-- Settles O26: the tests of the base, the length and the characters stand in this order. -/
theorem parseResults : Obligations.ParseResults :=
  ⟨fun _ h => decodeWord_of_hasOpcode h rfl,
    fun rd rs2 s => errorOnly_or_of_exec (exec_parse rd rs2 s) fun _ h => errorOnly_or_of_exec h fun _ h =>
      ⟨fun hmalformed => ⟨_, by rw [h, parseText_of_malformed hmalformed]; rfl, raiseError_spec .malformedLiteral s⟩,
        fun hdigits => writesReg_of_exec (by rw [h, parseText_of_digitsBelow hdigits]; rfl)⟩⟩

/-- Settles O27: both commands go by the same digits, and TOSTR.U writes no sign. -/
theorem digitCountIsTextLength : Obligations.DigitCountIsTextLength := by
  intro rd rs1 rs2 s hlo hhi
  obtain ⟨t, ht, hcount⟩ := writesReg_of_exec ((exec_digitsU rd rs1 rs2 s).trans (by rw [if_neg (by omega)]; rfl))
  obtain ⟨u, hu, htext⟩ := tostrU_writesText rs1 hlo hhi
  refine ⟨t, u, ht, hu, ?_⟩
  calc (readReg rd t).toNat = (positional (readReg rs1 s).toNat (readReg rs2 s).toNat).length := by
        rw [hcount.result, toNat_ofNat_length_positional hlo (readReg rs1 s).isLt]
    _ = u.strlen.toNat := (htext.strlen.trans (length_digitText _ _)).symm

/-- Settles O28: PARSE reads the text that TOSTR wrote; below base 11 every character after the sign is a digit, and a letter is
malformed in any base. -/
theorem textRoundTrip : Obligations.TextRoundTrip := by
  intro rd rs1 rs2 s i hi hlo hhi
  obtain ⟨t, negative, m, ht, hw, hm, hvalue⟩ := tostr_writes_value rs1 hlo hhi hi
  have htext := parsedText_of_writesText hw (length_signedText_le hlo negative hm)
  have hminus : hasMinus (parsedText t) = negative := htext ▸ hasMinus_signedText hlo hhi negative
  have hafter : afterSign (parsedText t) = digitText m (readReg rs2 s).toNat := htext ▸ afterSign_signedText hlo hhi negative
  have hlength : t.strlen.toNat ≤ 132 := hw.strlen ▸ length_signedText_le hlo negative hm
  have hbase : readReg rs2 t = readReg rs2 s := hw.regs rs2 List.not_mem_nil
  obtain ⟨-, hparse⟩ := parseResults
  specialize hparse rd rs2 t
  rw [hbase, if_neg (by omega), if_neg (by omega)] at hparse
  obtain ⟨hmalformed, hdigits⟩ := hparse
  by_cases hd : DigitsBelow (readReg rs2 s).toNat (afterSign (parsedText t))
  case pos =>
    obtain ⟨u, hu, hwu⟩ := hdigits hd
    refine ⟨t, u, ht, hu, fun hten => ⟨hwu.result.trans ?_, hwu.status.err⟩, fun ⟨k, hk, hletter⟩ => ?_⟩
    · rw [hminus, hafter, textNumber_digitText hlo hten, hvalue]
    · exact absurd hd (not_digitsBelow_of_letter (List.mem_map_of_mem (List.mem_range.mpr hk)) hletter)
  case neg =>
    obtain ⟨u, hu, herror⟩ := hmalformed hd
    exact ⟨t, u, ht, hu, fun hten => absurd (hafter ▸ digitsBelow_digitText hlo hten) hd, fun _ => herror⟩

end Sys2Proof.Machine
end

section
/-! SUPPORT. EXT64 widens the low 64 bits of the operand by its unsigned and its signed reading (R201); CMIN and CMAX give the
bounds of R202 (R203, R204). -/

namespace Sys2Proof.Machine

/-! ### The low 64 bits and their two extensions (R12, R201) -/

section extension

variable (a : Value)

theorem toNat_low64 : (low64 a).toNat = a.toNat % 2 ^ 64 := BitVec.extractLsb'_toNat 0 64 a

theorem toInt_low64 : (low64 a).toInt = (a.toNat : Int).bmod (2 ^ 64) := BitVec.toInt_extractLsb'

theorem zext128_low64 : zext128 (low64 a) = BitVec.ofNat 128 (a.toNat % 2 ^ 64) := by
  rw [← toNat_low64, BitVec.ofNat_toNat]
  rfl

theorem sext128_low64 : sext128 (low64 a) = BitVec.ofInt 128 ((a.toNat : Int).bmod (2 ^ 64)) :=
  congrArg (BitVec.ofInt 128) (toInt_low64 a)

end extension

/-! ### The bounds as numbers (R202) -/

theorem unsignedMin_eq_ofInt : unsignedMin = BitVec.ofInt 128 0 := by decide

theorem signedMin_eq_ofInt : signedMin = BitVec.ofInt 128 (-2 ^ 127) := by decide

theorem unsignedMax_eq_ofInt : unsignedMax = BitVec.ofInt 128 (2 ^ 128 - 1) := by decide

theorem signedMax_eq_ofInt : signedMax = BitVec.ofInt 128 (2 ^ 127 - 1) := by decide

/-! ### The completion of each command -/

section arms

variable (rd rs1 : Reg) (s : State)

theorem exec_ext64U : exec (.ext64U rd rs1) s =
    completeReg rd (BitVec.ofNat 128 ((readReg rs1 s).toNat % 2 ^ 64)) s :=
  congrArg (completeReg rd · s) (zext128_low64 (readReg rs1 s))

theorem exec_ext64S : exec (.ext64S rd rs1) s =
    completeReg rd (BitVec.ofInt 128 (((readReg rs1 s).toNat : Int).bmod (2 ^ 64))) s :=
  congrArg (completeReg rd · s) (sext128_low64 (readReg rs1 s))

theorem exec_cminU : exec (.cminU rd) s = completeReg rd (BitVec.ofInt 128 0) s :=
  congrArg (completeReg rd · s) unsignedMin_eq_ofInt

theorem exec_cminS : exec (.cminS rd) s = completeReg rd (BitVec.ofInt 128 (-2 ^ 127)) s :=
  congrArg (completeReg rd · s) signedMin_eq_ofInt

theorem exec_cmaxU : exec (.cmaxU rd) s = completeReg rd (BitVec.ofInt 128 (2 ^ 128 - 1)) s :=
  congrArg (completeReg rd · s) unsignedMax_eq_ofInt

theorem exec_cmaxS : exec (.cmaxS rd) s = completeReg rd (BitVec.ofInt 128 (2 ^ 127 - 1)) s :=
  congrArg (completeReg rd · s) signedMax_eq_ofInt

end arms

end Sys2Proof.Machine
end

section
/-! The statements of 47_constants.md. -/

namespace Sys2Proof.Machine

/-- Settles O29: the S bit selects the row; the two extensions are the two readings of the low 64 bits, and the bounds are the
least and the greatest value of either reading. -/
theorem constructionResults : Obligations.ConstructionResults :=
  ⟨fun _ h hS => decodeWord_of_hasOpcode_unsigned h hS rfl, fun _ h hS => decodeWord_of_hasOpcode_signed h hS rfl,
    fun _ h hS => decodeWord_of_hasOpcode_unsigned h hS rfl, fun _ h hS => decodeWord_of_hasOpcode_signed h hS rfl,
    fun _ h hS => decodeWord_of_hasOpcode_unsigned h hS rfl, fun _ h hS => decodeWord_of_hasOpcode_signed h hS rfl,
    fun rd rs1 s => writesReg_of_exec (exec_ext64U rd rs1 s),
    fun rd rs1 s => writesReg_of_exec (exec_ext64S rd rs1 s),
    fun rd s => writesReg_of_exec (exec_cminU rd s),
    fun rd s => writesReg_of_exec (exec_cminS rd s),
    fun rd s => writesReg_of_exec (exec_cmaxU rd s),
    fun rd s => writesReg_of_exec (exec_cmaxS rd s)⟩

end Sys2Proof.Machine
end

section
/-! SUPPORT. Which words are illegal (R87, R88, R227): the decoder rejects exactly the words that are not legal. -/

namespace Sys2Proof

/-- The opcode table has a row for OP = 0x01 to 0x17, with S = 0 and with S = 1, and for no other OP (R86). -/
theorem exists_opcodeRow_iff (op : Nat) (s : Bool) (rd rs1 rs2 rd2 : Reg) :
    (∃ i, opcodeRow op s rd rs1 rs2 rd2 = some i) ↔ 1 ≤ op ∧ op ≤ 0x17 := by
  constructor
  · rintro ⟨i, h⟩
    unfold opcodeRow at h
    split at h <;> cases h <;> decide
  · rintro ⟨hlo, hhi⟩
    interval_cases op <;> cases s <;> exact ⟨_, rfl⟩

/-- The conditions of R227, each the failure of one condition of a legal word: bit 7 set, one of bits 31:20 set, or an OP
without a row. -/
theorem legalWord_eq_false_iff (w : Word) : legalWord w = false ↔
    w.extractLsb' 7 1 = 1#1 ∨ w.extractLsb' 20 12 ≠ 0#12 ∨ (w.extractLsb' 0 6).toNat = 0x00 ∨
      (0x18 ≤ (w.extractLsb' 0 6).toNat ∧ (w.extractLsb' 0 6).toNat ≤ 0x3F) := by
  have hlt := (w.extractLsb' 0 6).isLt
  have hop : ((w.extractLsb' 0 6).toNat = 0x00 ∨
      (0x18 ≤ (w.extractLsb' 0 6).toNat ∧ (w.extractLsb' 0 6).toNat ≤ 0x3F)) ↔
      ¬(1 ≤ (w.extractLsb' 0 6).toNat ∧ (w.extractLsb' 0 6).toNat ≤ 0x17) := by omega
  have hbit7 : w.extractLsb' 7 1 = 1#1 ↔ w.extractLsb' 7 1 ≠ 0#1 := by
    rcases BitVec.eq_zero_or_eq_one (w.extractLsb' 7 1) with h | h <;> simp [h]
  rw [hop, hbit7, ← Bool.not_eq_true]
  simp only [legalWord, opListed, res0Clear, res1Clear, Bool.and_eq_true, decide_eq_true_eq, beq_iff_eq]
  tauto

theorem exists_decodeWord_iff (w : Word) : (∃ i, decodeWord w = .ok i) ↔ legalWord w = true := by
  simp only [decodeWord_eq_ok_iff, exists_and_left, exists_opcodeRow_iff]
  simp only [legalWord, opListed, res0Clear, res1Clear, fieldOP, Bool.and_eq_true, decide_eq_true_eq, beq_iff_eq]
  tauto

end Sys2Proof

namespace Sys2Proof.Machine

theorem complete_of_legal {s : State} (h : legalWord s.cmd = true) :
    ∃ i, decodeWord s.cmd = .ok i ∧ complete s = exec i s := by
  obtain ⟨i, hi⟩ := (exists_decodeWord_iff s.cmd).mpr h
  exact ⟨i, hi, complete_of_decode hi⟩

theorem complete_of_illegal {s : State} (h : legalWord s.cmd = false) :
    complete s = .next (raiseError .illegalCommand s) := by
  rcases complete_cases s with ⟨i, hi, -⟩ | ⟨-, -, hc⟩
  · exact absurd ((exists_decodeWord_iff s.cmd).mp ⟨i, hi⟩) (by simp [h])
  · exact hc

end Sys2Proof.Machine
end

section
/-! SUPPORT. What every completion has in common: its status, its frame, and that an error writes the status alone (R33,
R222). -/

namespace Sys2Proof.Machine

section completes

variable {i : Instr} {s t : State}

theorem Completes.done (h : Completes i s t) : t.done = true := by
  cases h <;> rfl

theorem Completes.err_le (h : Completes i s t) : t.err.toNat ≤ 6 := by
  cases h with
  | error e => exact e.code_le
  | regs | compare | text => exact Nat.zero_le 6

theorem Completes.frame (h : Completes i s t) : CompletionFrame s t := by
  cases h <;> exact ⟨rfl, rfl, rfl, rfl, rfl, rfl⟩

/-- Of the ways to complete, only an error leaves a code other than 0. -/
theorem Completes.errorOnly (h : Completes i s t) (he : t.err ≠ 0#4) : ErrorOnly t.err s t := by
  cases h with
  | error e => exact raiseError_spec e s
  | regs | compare | text => exact absurd rfl he

/-- The completion of the command in flight, whatever word stands in CMD. -/
theorem exists_complete (s : State) : ∃ t, complete s = .next t ∧ t.busy = false ∧ t.done = true := by
  rcases complete_cases s with ⟨i, -, hc⟩ | ⟨-, -, hc⟩
  · obtain ⟨t, ht, hcompletes⟩ := exec_completes i s
    exact ⟨t, hc.trans ht, hcompletes.busy, hcompletes.done⟩
  · exact ⟨_, hc, rfl, rfl⟩

theorem complete_errorOnly (h : complete s = .next t) (he : t.err ≠ 0#4) : ErrorOnly t.err s t := by
  rcases complete_cases s with ⟨i, -, hc⟩ | ⟨-, -, hc⟩ <;> rw [hc] at h
  · exact (completes_of_exec h).errorOnly he
  · cases h
    exact raiseError_spec .illegalCommand s

end completes

end Sys2Proof.Machine
end

section
/-! The statements of 60_exceptions.md. -/

namespace Sys2Proof.Machine

/-- Settles O5: the conditions of R227 are those of an illegal word, which the decoder rejects; every other word decodes. -/
theorem illegalWordRaisesIllegalCommand : Obligations.IllegalWordRaisesIllegalCommand := by
  intro s hb hw hr
  rw [step_of_due hb hw hr]
  split_ifs with h
  · exact ⟨_, complete_of_illegal ((legalWord_eq_false_iff s.cmd).mpr h), raiseError_spec .illegalCommand s⟩
  · rw [← legalWord_eq_false_iff, Bool.not_eq_false] at h
    exact complete_of_legal h

/-- Settles O31, for a command by the ways it can complete, for a due step by what a completion does. -/
theorem errorsWriteOnlyStatus : Obligations.ErrorsWriteOnlyStatus := by
  refine ⟨fun i s t h he => (completes_of_exec h).errorOnly he, fun s t hb hw hr h he => ?_⟩
  rw [step_of_due hb hw hr] at h
  exact complete_errorOnly h he

/-- Settles O7. -/
theorem idleBlockDoesNotChange : Obligations.IdleBlockDoesNotChange := by
  intro s hb hp
  rw [step_of_quiet (completionDue_of_idle hb) hp, tick_of_idle hb]

/-- Settles O30, by the ways a command can complete. -/
theorem everyCommandCompletes : Obligations.EveryCommandCompletes := by
  intro i s
  obtain ⟨t, ht, hc⟩ := exec_completes i s
  exact ⟨t, ht, hc.busy, hc.done, hc.err_le, hc.frame⟩

end Sys2Proof.Machine
end

section
/-! SUPPORT. The block while reset is asserted: accesses are refused, and the registers hold their reset values (R250,
R253). -/

namespace Sys2Proof.Machine

section inReset

variable {s : State} (hr : s.inReset = true)
include hr

theorem completionDue_of_inReset : completionDue s = false := by
  simp [completionDue, hr]

theorem atWindow_inReset {off : Nat} (f : Nat → State) (hoff : off < 0x200) :
    atWindow (Config.coreBase + off) f s = .refused .accessDuringReset := by
  simp only [atWindow, windowOffset_coreBase_add off hoff, hr, if_true]

/-- While reset is asserted, an event of the host that is answered with a next state is no access. -/
theorem serveEvent_inReset_cases {e : HostEvent} {t : State} (h : serveEvent e s = .next t) :
    t = s ∨ t = assertReset s ∨ t = releaseReset s := by
  have hne : s.inReset ≠ false := by simp [hr]
  rcases serveEvent_cases e s t h with ⟨_, _, _, -, -, -, hr', -⟩ | ⟨_, _, _, _, -, -, -, hr', -⟩ | ⟨_, hr', -⟩ |
    ⟨-, ht⟩ | ⟨-, ht⟩ | ⟨-, ht⟩
  · exact absurd hr' hne
  · exact absurd hr' hne
  · exact absurd hr' hne
  · exact .inl ht
  · exact .inr (.inl ht)
  · exact .inr (.inr ht)

end inReset

theorem assertReset_atResetValues (s : State) : AtResetValues (assertReset s) :=
  resetRegisters_atResetValues { s with inReset := true }

/-- The registers of the window say nothing about the reset input. -/
theorem AtResetValues.releaseReset {s : State} (h : AtResetValues s) : AtResetValues (releaseReset s) :=
  ⟨h.regs, h.cmd, h.busy, h.done, h.cmpres, h.err, h.strlen, h.strbuf, h.status⟩

theorem BlockInv.atResetValues {s : State} (hs : BlockInv s) (hr : s.inReset = true) : AtResetValues s :=
  hs.held hr ▸ resetRegisters_atResetValues s

end Sys2Proof.Machine
end

section
/-! SUPPORT. A command in flight under the host's events short of a reset (R33, R34): its latency runs down, then it
completes. -/

namespace Sys2Proof.Machine

/-- A command is in flight with `n` cycles left, reset is not asserted, and the host still asks `es`. -/
structure InFlight (n : Nat) (es : List HostEvent) (s : State) : Prop where
  busy : s.busy = true
  inReset : s.inReset = false
  wait : s.wait = n
  pending : s.pending = es

section inFlight

variable {n : Nat} {es : List HostEvent} {s : State} (h : InFlight n es s)
include h

/-- What the host sees is no part of the command in flight. -/
theorem InFlight.hostSide (rs : List BusReply) (k : Nat) : InFlight n es { s with replies := rs, freeIndex := k } :=
  ⟨h.busy, h.inReset, h.wait, h.pending⟩

theorem InFlight.serveRead (addr off bytes : Nat) : InFlight n es (serveRead addr off bytes s) := by
  rcases serveRead_cases addr off bytes s with ⟨-, heq⟩ | ⟨-, heq⟩ <;> exact heq ▸ h.hostSide _ _

theorem InFlight.serveWrite (addr off bytes : Nat) (v : Word) : InFlight n es (serveWrite addr off bytes v s) := by
  rcases serveWrite_cases addr off bytes v s with ⟨-, heq⟩ | ⟨-, heq⟩ <;> rw [heq]
  · rw [writeWord_busy off v s h.busy]
    exact h.hostSide _ _
  · exact h.hostSide _ _

/-- Each event but a reset is answered, and leaves the command in flight. -/
theorem InFlight.exists_serveEvent {e : HostEvent} (he : Harmless e) :
    ∃ t, serveEvent e s = .next t ∧ InFlight n es t := by
  cases e with
  | read addr bytes =>
    obtain ⟨off, hoff, rfl⟩ := he
    exact ⟨_, atWindow_coreBase_add _ h.inReset hoff, h.serveRead _ off bytes⟩
  | write addr bytes v =>
    obtain ⟨off, hoff, rfl⟩ := he
    exact ⟨_, atWindow_coreBase_add _ h.inReset hoff, h.serveWrite _ off bytes v⟩
  | readValue r =>
    exact ⟨_, if_neg (by simp [h.inReset]), h.hostSide _ _⟩
  | readText =>
    exact ⟨_, if_neg (by simp [h.inReset]), h.hostSide _ _⟩
  | idle => exact ⟨s, rfl, h⟩
  | assertReset => exact he.elim
  | releaseReset => exact ⟨releaseReset s, rfl, h.busy, rfl, h.wait, h.pending⟩

end inFlight

section cycle

variable {n : Nat} {es : List HostEvent} {s : State} (h : InFlight (n + 1) es s)
include h

theorem InFlight.tick : InFlight n es (tick s) :=
  ⟨(tick_busy s).trans h.busy, (tick_inReset s).trans h.inReset,
    by rw [tick_wait, if_pos h.busy, h.wait, Nat.add_sub_cancel], (tick_pending s).trans h.pending⟩

theorem InFlight.atEvent (rest : List HostEvent) : InFlight n rest (atEvent s rest) :=
  ⟨h.tick.busy, h.tick.inReset, h.tick.wait, rfl⟩

/-- While latency is left a step takes one cycle off it, whether the host asks something or not. -/
theorem InFlight.exists_step (hes : ∀ e ∈ es, Harmless e) : ∃ t, step s = .next t ∧ InFlight n es.tail t := by
  have hd := completionDue_of_wait (s := s) (by rw [h.wait]; exact n.succ_ne_zero)
  cases es with
  | nil => exact ⟨_, step_of_quiet hd h.pending, h.tick⟩
  | cons e rest =>
    obtain ⟨t, ht, hflight⟩ := (h.atEvent rest).exists_serveEvent (hes e List.mem_cons_self)
    exact ⟨t, (step_of_event hd h.pending).trans ht, hflight⟩

end cycle

/-- A command with `n` cycles left is complete after `n + 1` steps. -/
theorem InFlight.exists_run (n : Nat) {es : List HostEvent} {s : State} (h : InFlight n es s)
    (hes : ∀ e ∈ es, Harmless e) :
    ∃ t, Host.Core.run Sys2Proof.core (n + 1) s = .next t ∧ t.busy = false ∧ t.done = true := by
  induction n generalizing es s with
  | zero =>
    obtain ⟨t, ht, hbusy, hdone⟩ := exists_complete s
    exact ⟨t, run_succ 0 ((step_of_due h.busy h.wait h.inReset).trans ht), hbusy, hdone⟩
  | succ n ih =>
    obtain ⟨u, hu, hflight⟩ := h.exists_step hes
    rw [run_succ (n + 1) hu]
    exact ih hflight fun e he => hes e (List.mem_of_mem_tail he)

end Sys2Proof.Machine
end

section
/-! SUPPORT. A multi-word read while BUSY = 1 (R256): its words, and the completion that its new words come from, which does
not depend on the latency left or on what the host still asks. -/

namespace Sys2Proof.Machine

/-! ### A completion at another time -/

/-- `s` when its command in flight has `n` cycles left and the host still asks `es`. -/
def later (n : Nat) (es : List HostEvent) (s : State) : State := { s with wait := n, pending := es }

theorem atEvent_eq_later {s : State} (hb : s.busy = true) (rest : List HostEvent) :
    atEvent s rest = later (s.wait - 1) rest s :=
  atEvent_of_busy hb rest

section later

variable {s t : State} (n : Nat) (es : List HostEvent)

theorem completeReg_later {rd : Reg} {v : Value} (h : completeReg rd v s = .next t) :
    completeReg rd v (later n es s) = .next (later n es t) := by
  cases h
  rfl

theorem completeRule_later {rd : Reg} {r : Except ErrorCode Value} (h : completeRule rd r s = .next t) :
    completeRule rd r (later n es s) = .next (later n es t) := by
  cases r <;> cases h <;> rfl

theorem completePair_later {rd rd2 : Reg} {r : Except ErrorCode (Value × Value)}
    (h : completePair rd rd2 r s = .next t) :
    completePair rd rd2 r (later n es s) = .next (later n es t) := by
  cases r <;> cases h <;> rfl

theorem completeText_later {r : Except ErrorCode (List Byte)} (h : completeText r s = .next t) :
    completeText r (later n es s) = .next (later n es t) := by
  cases r <;> cases h <;> rfl

theorem completeCompare_later {rd : Reg} {o : Ordering} (h : completeCompare rd o s = .next t) :
    completeCompare rd o (later n es s) = .next (later n es t) := by
  cases h
  rfl

/-- A command's results do not depend on the latency left or on the host's events: each of the five shared completions reads
its operands from the registers and leaves the rest of the state as it is. -/
theorem exec_later {i : Instr} (h : exec i s = .next t) :
    exec i (later n es s) = .next (later n es t) := by
  cases i
  case add | sub | neg | not | and | or | xor | sll | srl | mul | pow | ext64U | ext64S | cminU | cminS | cmaxU | cmaxS =>
    exact completeReg_later n es h
  case divU | divS | remU | remS | rootU | rootS | sqrtS | digitsU | digitsS | parse =>
    exact completeRule_later n es h
  case sqrtU rd rs1 => exact completeRule_later (r := sqrtRule false (operandA rs1 s)) n es h
  case divremU | divremS => exact completePair_later n es h
  case tostrU | tostrS => exact completeText_later n es h
  case cmpU | cmpS => exact completeCompare_later n es h

theorem complete_later (h : complete s = .next t) :
    complete (later n es s) = .next (later n es t) := by
  cases hlegal : legalWord s.cmd with
  | true =>
    obtain ⟨i, hi, hc⟩ := complete_of_legal hlegal
    exact (complete_of_decode (s := later n es s) hi).trans (exec_later n es (hc.symm.trans h))
  | false =>
    rw [complete_of_illegal hlegal] at h
    cases h
    exact complete_of_illegal (s := later n es s) hlegal

end later

theorem afterCompletion_of_complete {s t : State} (h : complete s = .next t) : afterCompletion s = t := by
  simp only [afterCompletion, h]

theorem afterCompletion_atEvent {s post : State} (hb : s.busy = true) (h : complete s = .next post)
    (rest : List HostEvent) :
    afterCompletion (atEvent s rest) = later (s.wait - 1) rest post := by
  rw [atEvent_eq_later hb]
  exact afterCompletion_of_complete (complete_later _ _ h)

/-! ### The words of the answer -/

theorem tornChoice_old_or_new (n j : Nat) (old new : Word) :
    tornChoice n j old new = old ∨ tornChoice n j old new = new := by
  unfold tornChoice
  split
  · exact .inr rfl
  · exact .inl rfl

theorem getD_map_range (f : Nat → Word) (d : Word) {m k : Nat} (hk : k < m) : ((List.range m).map f).getD k d = f k := by
  simp [List.getD_eq_getElem?_getD, hk]

section torn

variable {s : State} (hb : s.busy = true)
include hb

theorem word_multiReadValue (r : Reg) {j : Nat} (hj : j < 4) : word (multiReadValue r s) j =
    tornChoice s.freeIndex j (word (readReg r s) j) (word (readReg r (afterCompletion s)) j) := by
  rw [multiReadValue, if_pos hb, word_ofWords_of_length _ (by simp) j hj, getD_map_range _ _ hj]

theorem getD_multiReadText {k : Nat} (hk : k < 33) : (multiReadText s).getD k 0#32 =
    tornChoice s.freeIndex k (s.strbuf.readWord k) ((afterCompletion s).strbuf.readWord k) := by
  rw [multiReadText, if_pos hb, getD_map_range _ _ hk]

end torn

theorem length_multiReadText (s : State) : (multiReadText s).length = 33 := by
  unfold multiReadText
  split <;> simp

/-! ### The step that serves it -/

section step

variable {s : State} {rest : List HostEvent} (hd : completionDue s = false) (hr : s.inReset = false)
include hd hr

theorem step_readValue {r : Reg} (hp : s.pending = .readValue r :: rest) :
    step s = .next (nextFree (reply (.value (multiReadValue r (atEvent s rest))) (atEvent s rest))) := by
  rw [step_of_event hd hp, serveEvent, atEvent_inReset, hr, if_neg Bool.false_ne_true]

theorem step_readText (hp : s.pending = .readText :: rest) :
    step s = .next (nextFree (reply (.text (multiReadText (atEvent s rest))) (atEvent s rest))) := by
  rw [step_of_event hd hp, serveEvent, atEvent_inReset, hr, if_neg Bool.false_ne_true]

end step

theorem SameBlock.nextFree {s t : State} (h : SameBlock s t) : SameBlock s (nextFree t) :=
  ⟨h.regs, h.cmd, h.busy, h.done, h.cmpres, h.err, ⟨h.text.strlen, h.text.strbuf⟩, h.inReset⟩

end Sys2Proof.Machine
end

section
/-! The statements of 70_reset_and_hazards.md. -/

namespace Sys2Proof.Machine

/-- Settles O46: asserting reset leaves the reset values whatever was in flight; while it is asserted the invariant holds
them, and no event that is answered changes them. -/
theorem resetAbandonsCommand : Obligations.ResetAbandonsCommand := by
  refine ⟨fun s rest hd hp => ?_, fun s t hs hr h => ?_⟩
  · exact ⟨_, step_of_event hd hp, assertReset_atResetValues _, rfl, rfl⟩
  · rcases step_cases s t h with ⟨hd, -⟩ | ⟨-, -, rfl⟩ | ⟨-, e, rest, -, he⟩
    · rw [completionDue_of_inReset hr] at hd
      cases hd
    · exact hs.tick.atResetValues ((tick_inReset s).trans hr)
    · have hr' : (atEvent s rest).inReset = true := (atEvent_inReset s rest).trans hr
      have hvalues : AtResetValues (atEvent s rest) := (hs.tick.hostSide rest _ _).atResetValues hr'
      rcases serveEvent_inReset_cases hr' he with rfl | rfl | rfl
      · exact hvalues
      · exact assertReset_atResetValues _
      · exact hvalues.releaseReset

/-- Settles O47: no completion is due while reset is asserted, so the access is served, and that refuses it. -/
theorem accessDuringResetRefused : Obligations.AccessDuringResetRefused := by
  intro s off bytes v r rest hr hoff haccess
  have hr' : (atEvent s rest).inReset = true := (atEvent_inReset s rest).trans hr
  have hd := completionDue_of_inReset hr
  rcases haccess with hp | hp | hp | hp <;> rw [step_of_event hd hp, serveEvent]
  · exact atWindow_inReset hr' _ hoff
  · exact atWindow_inReset hr' _ hoff
  · exact if_pos hr'
  · exact if_pos hr'

/-- Settles O50, by induction on the latency that is left. -/
theorem acceptedCommandCompletes : Obligations.AcceptedCommandCompletes :=
  fun _ hb hr hes => InFlight.exists_run _ ⟨hb, hr, rfl, rfl⟩ hes

/-- Settles O42: each word is chosen between the one now and the one after the completion, which is the same completion a
cycle later. -/
theorem tornReadWordsAreOldOrNew : Obligations.TornReadWordsAreOldOrNew := by
  intro s post rest hb hw hr hpost
  have hd := completionDue_of_wait hw
  have hbusy : (atEvent s rest).busy = true := (atEvent_busy s rest).trans hb
  refine ⟨fun r hp => ?_, fun hp => ?_⟩
  · refine ⟨_, _, step_readValue hd hr hp, (sameBlock_reply_atEvent _ s rest).nextFree,
      by rw [nextFree_replies, reply_replies, atEvent_replies], fun j hj => ?_⟩
    rw [word_multiReadValue hbusy r hj, afterCompletion_atEvent hb hpost, atEvent_eq_later hb]
    exact tornChoice_old_or_new _ j _ _
  · refine ⟨_, _, step_readText hd hr hp, (sameBlock_reply_atEvent _ s rest).nextFree,
      by rw [nextFree_replies, reply_replies, atEvent_replies], length_multiReadText _, fun k hk => ?_⟩
    rw [getD_multiReadText hbusy hk, afterCompletion_atEvent hb hpost, atEvent_eq_later hb]
    exact tornChoice_old_or_new _ k _ _

end Sys2Proof.Machine
end
